-- ==== Sys2Proof/Word.lean ====
section
/-! DEFINITION. The fixed-width values of the block (00_scope.md R6): every value is an unsigned bit vector,
bit 0 is the least significant bit. -/

namespace Sys2Proof

/-- The width of the register, of a response and of a checksum (00_scope.md R4, WIDTH). -/
abbrev Word := BitVec 32

/-- The data one UPDATE absorbs (00_scope.md R5, DATA_W = 8). -/
abbrev Byte := BitVec 8

/-- A command word of format CMD10 (30_encoding.md R32, CMD_W = 10). -/
abbrev CmdWord := BitVec 10

end Sys2Proof
end

