-- ==== Sys2Proof/Syntax.lean ====
section
/-! DEFINITION. The four commands (30_encoding.md R35). -/

namespace Sys2Proof

/-- One constructor per row of spec/opcode_table.json. IDLE, INIT and READ have no operand (30_encoding.md R34):
their `data` field is ignored and so is no part of the command (R36). -/
inductive Instr where
  /-- IDLE (40_control.md R40). -/
  | idle
  /-- INIT (40_control.md R41). -/
  | init
  /-- UPDATE d (41_update.md R45). -/
  | update (d : Byte)
  /-- READ (42_result.md R53). -/
  | read
deriving DecidableEq, Repr

end Sys2Proof
end

