-- ==== Sys2Proof/WellFormed.lean ====
section
/-! DEFINITION. The checks on numbers that come from outside the block: what is a command word, and what is an
operand of UPDATE. -/

namespace Sys2Proof

/-- "a value outside 0 to 1023 is not a command word and cannot be presented" (30_encoding.md R36). -/
def isCommandWord (n : Nat) : Bool := n < 1024

/-- "An operand outside 0 to 255 is an assembly error, not a command" (30_encoding.md R37). -/
def isByteOperand (n : Nat) : Bool := n < 256

/-- A command is well-formed when its operands are in range. `Byte` already bounds UPDATE's operand, so every
command is well-formed: there is no illegal command (30_encoding.md R36). -/
def Instr.wellFormed : Instr → Bool
  | .idle => true
  | .init => true
  | .update d => isByteOperand d.toNat
  | .read => true

end Sys2Proof
end

