-- ==== Sys2Proof/Decode.lean ====
section
/-! DEFINITION. Format CMD10 (30_encoding.md R32 to R36): the decoder, total on the 1024 command words, and the
encoder of the canonical words. -/

namespace Sys2Proof

/-- Field `op`, bits 9:8 (30_encoding.md R33). -/
def opField (w : CmdWord) : BitVec 2 := w.extractLsb' 8 2

/-- Field `data`, bits 7:0, used as it stands (30_encoding.md R33, R34). -/
def dataField (w : CmdWord) : Byte := w.extractLsb' 0 8

/-- A word of format CMD10 from its two fields: as a number, `op * 256 + data` (30_encoding.md R33). -/
def commandWord (op : BitVec 2) (data : Byte) : CmdWord := op ++ data

/-- The opcode map (30_encoding.md R35). Every word selects a command; only UPDATE uses `data` (R36). -/
def decode (w : CmdWord) : Instr :=
  match (opField w).toFin with
  | 0 => .idle
  | 1 => .init
  | 2 => .update (dataField w)
  | 3 => .read

/-- Why a number is no command. -/
inductive DecodeError where
  /-- A value outside 0 to 1023 (30_encoding.md R36). Safe: such a value cannot be presented to the block. -/
  | notACommandWord
deriving DecidableEq, Repr

/-- The decoder on any number: total, rejecting by name what is not a command word (30_encoding.md R36). -/
def decodeNat (n : Nat) : Except DecodeError Instr :=
  if isCommandWord n then .ok (decode (BitVec.ofNat 10 n)) else .error .notACommandWord

/-- The canonical encodings, which an assembler emits (30_encoding.md R36). -/
def encode : Instr → CmdWord
  | .idle => commandWord 0b00#2 0#8
  | .init => commandWord 0b01#2 0#8
  | .update d => commandWord 0b10#2 d
  | .read => commandWord 0b11#2 0#8

/-- A table row's bits as one number: bits from `nbits` up are 0. The one word is 10 bits wide, so the number IS the
command word; there is no memory, and so no order in which bytes of a word are stored (20_memory.md R20). -/
def tableWord (nbits w : Nat) : Nat := w % 2 ^ nbits

/-- What the decoder reads from an opcode-table word (log entry 5). -/
def decodeTableWord (nbits w : Nat) : Option Instr :=
  match decodeNat (tableWord nbits w) with
  | .ok i => some i
  | .error _ => none

end Sys2Proof
end

