-- ==== Sys2Proof/Machine/Operands.lean ====
section
/-! DEFINITION. The operators of 00_scope.md R7 that are not core bit-vector operations, and the one operand form:
UPDATE's byte, zero-extended (30_encoding.md R34). -/

namespace Sys2Proof.Machine

/-- `zext_32(d)`: bits 7:0 are d, bits 31:8 are zero (00_scope.md R7). -/
def zext32 (d : Byte) : Word := d.setWidth 32

/-- `bitrev_32(v)`: bit i of the result is bit 31-i of v (00_scope.md R7). -/
def bitrev32 (v : Word) : Word := v.reverse

/-- `bitrev_8(d)`: bit i of the result is bit 7-i of d (00_scope.md R7). -/
def bitrev8 (d : Byte) : Byte := d.reverse

/-- `v[8k+7:8k]`: byte k of a 32-bit value, byte 0 the least significant. -/
def byteOf (k : Nat) (v : Word) : Byte := v.extractLsb' (8 * k) 8

end Sys2Proof.Machine
end

