-- ==== Sys2Proof/Config.lean ====
section
/-! DEFINITION. The constants of the block (00_scope.md R4, R5). None is configurable and none is an argument of
the block (R5); the block leaves no value open, so nothing here is opaque (93_implementation_defined.md part 1). -/

namespace Sys2Proof.Config

/-- POLY: bit i is the coefficient of x^i, the coefficient of x^32 is not written (00_scope.md R4, 41_update.md R44). -/
def poly : Word := 0x04C11DB7#32

/-- POLY_REFLECTED: the polynomial for a right-shifting register (00_scope.md R5, 41_update.md R45). -/
def polyReflected : Word := 0xEDB88320#32

/-- INIT: the initial value of all-ones (00_scope.md R4). -/
def initialValue : Word := 0xFFFFFFFF#32

/-- XOROUT: the final XOR of all-ones (00_scope.md R4). -/
def finalXor : Word := 0xFFFFFFFF#32

/-- RESET_VALUE: the value of `crc` after reset (00_scope.md R5, 10_state.md R18). -/
def resetValue : Word := 0xFFFFFFFF#32

/-- CHECK: the value for the nine bytes of "123456789" (00_scope.md R4). -/
def checkValue : Word := 0xCBF43926#32

/-- RESIDUE: for information only; no rule of the block depends on it (00_scope.md R5, 43_message_function.md R63). -/
def residue : Word := 0xDEBB20E3#32

end Sys2Proof.Config
end

