-- ==== Sys2Proof/Machine/State.lean ====
section
/-! DEFINITION. The state of the block, plain data: the one register `crc` (10_state.md R10, R17), with the inputs the
host has yet to present and the responses it has received (log entries 1, 2). -/

namespace Sys2Proof.Machine

/-- What the host presents in one step: reset, at most one command word, or both (70_reset_and_hazards.md R87;
60_exceptions.md R74). -/
structure Input where
  /-- Reset is asserted in this step (70 R85). -/
  reset : Bool
  /-- The command word presented in this step, if any. -/
  command : Option CmdWord
deriving DecidableEq, Repr

/-- The whole state. -/
structure State where
  /-- The one register (10 R10); `none` is the unspecified content before the first reset (70 R86, log entry 3). -/
  crc : Option Word
  /-- The inputs the host has yet to present, next first: the host's side, not the block's (log entry 1). -/
  input : List Input
  /-- The responses the host has received, oldest first: the host's side, read by nothing (log entry 2). -/
  responses : List Word
deriving DecidableEq, Repr

/-- Why a step stops. -/
inductive Fault where
  /-- UPDATE or READ reads `crc` while it has no value, that is before the first reset or INIT (70 R86,
  93_implementation_defined.md U2: "an UPDATE or READ that reads it faults"). Raised by `execUpdate` and `execRead`.
  Safe: the block goes on with a value the spec does not give. -/
  | crcHasNoValue
deriving DecidableEq, Repr

/-- Why a command has no meaning. -/
inductive Refusal where
  /-- An arm of `exec` without its meaning. Raised by no arm: all four commands are modelled. Safe. -/
  | notModelled (mnemonic : String)
deriving DecidableEq, Repr

/-- The state right after reset (10 R18, 70 R85): `crc` holds 0xFFFFFFFF; the host has presented nothing and received
nothing (log entries 1, 2). -/
def State.reset : State := { crc := some Config.resetValue, input := [], responses := [] }

/-- The state at power-up, before the first reset: `crc` has no value (70 R86, log entry 3). -/
def State.powerUp : State := { crc := none, input := [], responses := [] }

end Sys2Proof.Machine
end

