-- ==== Sys2Proof/Machine/Ops.lean ====
section
/-! DEFINITION. The shared operations: the register, the response, the reset event, the byte step, and what the host
presents. The block raises no exception, so there is no exception entry or return here (60_exceptions.md R70, R75,
R76). -/

namespace Sys2Proof.Machine

/-- An input in which nothing is presented (40_control.md R40: `cmd_valid = 0`). -/
def Input.nothing : Input := { reset := false, command := none }

/-- An input that presents a command word and no reset. -/
def Input.ofWord (w : CmdWord) : Input := { reset := false, command := some w }

/-- An input that presents a command in its canonical encoding. -/
def Input.ofInstr (i : Instr) : Input := Input.ofWord (encode i)

/-- An input that asserts reset and presents no command. -/
def Input.ofReset : Input := { reset := true, command := none }

/-- The command an input presents; presenting nothing is the command IDLE (40_control.md R40, 70_reset_and_hazards.md
R96). -/
def Input.presented (i : Input) : Instr :=
  match i.command with
  | none => .idle
  | some w => decode w

/-- What the host presents in the next step. A host with nothing left to present presents nothing (log entry 1). -/
def nextInput (s : State) : Input :=
  match s.input with
  | [] => Input.nothing
  | i :: _ => i

/-- An input is consumed in the step in which it is presented (20_memory.md R31). -/
def consumeInput (s : State) : State := { s with input := s.input.tail }

/-- `crc <- v` (00_scope.md R8). -/
def writeCrc (v : Word) (s : State) : State := { s with crc := some v }

/-- Reading `crc` for the operation `k`: a fault while `crc` has no value (70_reset_and_hazards.md R86, log entry 3). -/
def withCrc (s : State) (k : Word → State) : Host.Outcome State Fault Refusal :=
  match s.crc with
  | none => .fault .crcHasNoValue
  | some c => .next (k c)

/-- `respond(v)` (00_scope.md R8): the host receives v, after all it has received before. -/
def respond (v : Word) (s : State) : State := { s with responses := s.responses ++ [v] }

/-- The reset event: `crc <- 0xFFFFFFFF` and nothing else (70_reset_and_hazards.md R85). -/
def takeReset (s : State) : State := writeCrc Config.resetValue s

/-- One iteration of the loop of 41_update.md R45; bit 0 is tested before the shift. -/
def bitStep (c : Word) : Word :=
  if c.getLsbD 0 then (c >>> 1) ^^^ Config.polyReflected else c >>> 1

/-- `step(c, d)`: the value UPDATE d gives `crc` from c (41_update.md R45, 43_message_function.md R58). -/
def crcStep (c : Word) (d : Byte) : Word := bitStep^[8] (c ^^^ zext32 d)

/-- The final XOR: the finalised value of a running value (42_result.md R53, 00_scope.md R9). -/
def finalise (c : Word) : Word := c ^^^ Config.finalXor

end Sys2Proof.Machine
end

