-- ==== Sys2Proof/Machine/Control.lean ====
section
/-! DEFINITION. The control commands IDLE and INIT (40_control.md). -/

namespace Sys2Proof.Machine

/-- IDLE: `crc` is neither read nor written and no response is given (40_control.md R40). -/
def execIdle (s : State) : Host.Outcome State Fault Refusal := .next s

/-- INIT: `crc <- 0xFFFFFFFF`; the previous content is not read (40_control.md R41). -/
def execInit (s : State) : Host.Outcome State Fault Refusal := .next (writeCrc Config.initialValue s)

end Sys2Proof.Machine
end

