-- ==== Sys2Proof/Machine/Result.lean ====
section
/-! DEFINITION. The command READ (42_result.md). -/

namespace Sys2Proof.Machine

/-- READ: respond `crc XOR 0xFFFFFFFF`; `crc` is not written (42_result.md R53). -/
def execRead (s : State) : Host.Outcome State Fault Refusal :=
  withCrc s fun c => respond (finalise c) s

end Sys2Proof.Machine
end

