-- ==== Sys2Proof/Machine/Update.lean ====
section
/-! DEFINITION. The command UPDATE (41_update.md). -/

namespace Sys2Proof.Machine

/-- UPDATE d: absorb one message byte, no response (41_update.md R45). -/
def execUpdate (d : Byte) (s : State) : Host.Outcome State Fault Refusal :=
  withCrc s fun c => writeCrc (crcStep c d) s

end Sys2Proof.Machine
end

