-- ==== Sys2Proof/Machine/Apply.lean ====
section
/-! DEFINITION. What the block does with one input, and with a sequence of inputs. -/

namespace Sys2Proof.Machine

/-- One step of the block on one input. Reset wins over a command presented with it, which is dropped without effect
and without response (70_reset_and_hazards.md R85, R87; 60_exceptions.md R74). -/
def applyInput (i : Input) (s : State) : Host.Outcome State Fault Refusal :=
  if i.reset then .next (takeReset s) else exec i.presented s

/-- The inputs one after another, each complete before the next (20_memory.md R29), up to the first stop. -/
def runInputs : List Input → State → Host.Outcome State Fault Refusal
  | [], s => .next s
  | i :: rest, s =>
    match applyInput i s with
    | .next s' => runInputs rest s'
    | .fault r => .fault r
    | .refused r => .refused r

/-- The host presents `w` in the very next step, ahead of what it presents later; a number that is no command word
cannot be presented (30_encoding.md R36, log entries 4, 5). -/
def presentNext (w : Nat) (s : State) : State :=
  if isCommandWord w then { s with input := Input.ofWord (BitVec.ofNat 10 w) :: s.input } else s

end Sys2Proof.Machine
end

