-- ==== Sys2Proof/Machine/Step.lean ====
section
/-! DEFINITION. One step: the host presents its next input, the block applies it (00_scope.md R8). -/

namespace Sys2Proof.Machine

/-- One step of the block (70_reset_and_hazards.md R95: each input is applied in exactly one step). -/
def step (s : State) : Host.Outcome State Fault Refusal := applyInput (nextInput s) (consumeInput s)

/-- `s` with an opcode-table word as the very next input (log entry 4): the block fetches nothing, the host presents
each command (10_state.md R13). -/
def State.withFetchWord (s : State) (nbits w : Nat) : State := presentNext (tableWord nbits w) s

end Sys2Proof.Machine
end

