-- ==== Sys2Proof/Machine/Message.lean ====
section
/-! DEFINITION. Messages: the function `CRC32(m)` (43_message_function.md R57, R58) and what an input sequence means in
terms of messages (20_memory.md R21). A message is a notion of the spec, not state of the block (10_state.md R17). -/

namespace Sys2Proof.Machine

/-- `run(c, m)`: the running value after the bytes of m, byte 0 first (43_message_function.md R58, 20_memory.md R22). -/
def runBytes (c : Word) (m : List Byte) : Word := m.foldl crcStep c

/-- `CRC32(m)` in fold form (43_message_function.md R58). -/
def crc32 (m : List Byte) : Word := finalise (runBytes Config.initialValue m)

/-- The UPDATE commands of a byte sequence, in order: the pseudo-instruction UPDATES (30_encoding.md R38). -/
def updateInputs (m : List Byte) : List Input := m.map fun d => Input.ofInstr (.update d)

/-- INIT, the UPDATEs of m, READ: the pseudo-instruction CRC32 (30_encoding.md R39, 43_message_function.md R57). -/
def messageInputs (m : List Byte) : List Input :=
  Input.ofInstr .init :: (updateInputs m ++ [Input.ofInstr .read])

/-- The message after a command: INIT empties it, UPDATE appends a byte, IDLE and READ leave it (20_memory.md R21). -/
def messageAfter : Instr → List Byte → List Byte
  | .idle, m => m
  | .init, _ => []
  | .update d, m => m ++ [d]
  | .read, m => m

/-- The message after one input: reset empties it (20_memory.md R21). -/
def messageStep (m : List Byte) (i : Input) : List Byte :=
  if i.reset then [] else messageAfter i.presented m

/-- The message after an input sequence that starts from reset: the bytes of all UPDATEs since the most recent INIT or
reset, in order (20_memory.md R21). -/
def messageOf (inputs : List Input) : List Byte := inputs.foldl messageStep []

/-- The input is a command `c` that takes effect: no reset stands beside it (70_reset_and_hazards.md R87). -/
def Input.does (i : Input) (c : Instr) : Bool := !i.reset && i.presented == c

/-- The responses an input sequence gets while `m` is the message so far: one for each READ, the finalised value of the
message at that point (42_result.md R54). -/
def responsesFrom (m : List Byte) : List Input → List Word
  | [] => []
  | i :: rest => (if i.does .read then [crc32 m] else []) ++ responsesFrom (messageStep m i) rest

/-- The sequence with every IDLE removed (40_control.md R40). -/
def withoutIdles (inputs : List Input) : List Input := inputs.filter fun i => !i.does .idle

end Sys2Proof.Machine
end

