-- ==== Sys2Proof/Machine/Assembler.lean ====
section
/-! DEFINITION. Assembler syntax (30_encoding.md R37 to R39): a listing to the inputs it stands for. Lexical details the
spec leaves open are in log entry 7. -/

namespace Sys2Proof.Machine

/-- Why a line does not assemble; an assembly error is not a command (30_encoding.md R37). -/
inductive AsmError where
  /-- A quote is left open at the end of the line, or single quotes hold more or less than one character. -/
  | badQuote
  /-- An operand is none of the three forms. -/
  | badOperand
  /-- An operand outside 0 to 255. -/
  | operandOutOfRange
  /-- No mnemonic of R37 to R39, or operands it does not take. -/
  | badLine
deriving DecidableEq, Repr

/-- A word, a character in single quotes, or a text in double quotes. -/
inductive Token where
  | word (cs : List Char)
  | quoted (c : Char)
  | text (cs : List Char)
deriving DecidableEq, Repr

/-- Where in a line the lexer is; what it has read of a token so far, last character first. -/
inductive LexMode where
  | plain (acc : List Char)
  | quote
  | quoteEnd (c : Char)
  | text (acc : List Char)
deriving DecidableEq, Repr

/-- A finished word, if there is one, in front of the tokens after it. -/
def flushWord (acc : List Char) (ts : List Token) : List Token :=
  if acc.isEmpty then ts else .word acc.reverse :: ts

/-- The tokens of a line; text from `;` to the end of the line is a comment (30_encoding.md R37). -/
def lexLine : LexMode → List Char → Except AsmError (List Token)
  | .plain acc, [] => .ok (flushWord acc [])
  | _, [] => .error .badQuote
  | .plain acc, c :: rest =>
    if c = ';' then .ok (flushWord acc [])
    else if c = ' ' ∨ c = '\t' ∨ c = '\r' then (lexLine (.plain []) rest).map (flushWord acc)
    else if c = '\'' then (lexLine .quote rest).map (flushWord acc)
    else if c = '"' then (lexLine (.text []) rest).map (flushWord acc)
    else lexLine (.plain (c :: acc)) rest
  | .quote, c :: rest => lexLine (.quoteEnd c) rest
  | .quoteEnd k, c :: rest =>
    if c = '\'' then (lexLine (.plain []) rest).map (.quoted k :: ·) else .error .badQuote
  | .text acc, c :: rest =>
    if c = '"' then (lexLine (.plain []) rest).map (.text acc.reverse :: ·) else lexLine (.text (c :: acc)) rest

/-- The value of a digit of a base up to 16. -/
def digitValue (base : Nat) (c : Char) : Option Nat :=
  let n := c.toNat
  let v := if 48 ≤ n ∧ n ≤ 57 then n - 48
    else if 65 ≤ n ∧ n ≤ 70 then n - 55
    else if 97 ≤ n ∧ n ≤ 102 then n - 87
    else 16
  if v < base then some v else none

/-- The value of a non-empty row of digits. -/
def numberValue (base : Nat) (ds : List Char) : Option Nat :=
  if ds.isEmpty then none
  else ds.foldl (fun acc c => acc.bind fun a => (digitValue base c).map (a * base + ·)) (some 0)

/-- A number as an operand of UPDATE. -/
def byteOfNumber : Option Nat → Except AsmError Byte
  | none => .error .badOperand
  | some n => if isByteOperand n then .ok (BitVec.ofNat 8 n) else .error .operandOutOfRange

/-- A printable ASCII character as an operand of UPDATE. -/
def byteOfChar (c : Char) : Except AsmError Byte :=
  if 32 ≤ c.toNat ∧ c.toNat ≤ 126 then .ok (BitVec.ofNat 8 c.toNat) else .error .badOperand

/-- The three forms of a byte operand: hexadecimal with the prefix `0x`, decimal, one printable ASCII character in
single quotes (30_encoding.md R37). -/
def byteOperand : Token → Except AsmError Byte
  | .word ('0' :: 'x' :: ds) => byteOfNumber (numberValue 16 ds)
  | .word ds => byteOfNumber (numberValue 10 ds)
  | .quoted c => byteOfChar c
  | .text _ => .error .badOperand

/-- The operands of UPDATES and CRC32: any number of bytes, or one text (30_encoding.md R38, R39). -/
def byteOperands : List Token → Except AsmError (List Byte)
  | [.text cs] => cs.mapM byteOfChar
  | ts => ts.mapM byteOperand

/-- The inputs of one line: nothing for an empty line, one input for a command or RESET, the expansion of a
pseudo-instruction (30_encoding.md R37 to R39). -/
def assembleTokens : List Token → Except AsmError (List Input)
  | [] => .ok []
  | .word m :: ops =>
    if m = "UPDATE".toList then
      match ops with
      | [op] => (byteOperand op).map fun d => [Input.ofInstr (.update d)]
      | _ => .error .badLine
    else if m = "UPDATES".toList then (byteOperands ops).map updateInputs
    else if m = "CRC32".toList then (byteOperands ops).map messageInputs
    else if ops.isEmpty then
      if m = "IDLE".toList then .ok [Input.ofInstr .idle]
      else if m = "INIT".toList then .ok [Input.ofInstr .init]
      else if m = "READ".toList then .ok [Input.ofInstr .read]
      else if m = "RESET".toList then .ok [Input.ofReset]
      else .error .badLine
    else .error .badLine
  | _ :: _ => .error .badLine

/-- The inputs of one line of text. -/
def assembleLine (line : List Char) : Except AsmError (List Input) :=
  match lexLine (.plain []) line with
  | .ok ts => assembleTokens ts
  | .error e => .error e

/-- The inputs of a listing, one command per line (30_encoding.md R37). -/
def assemble (listing : String) : Except AsmError (List Input) :=
  ((listing.toList.splitOn '\n').mapM assembleLine).map List.flatten

end Sys2Proof.Machine
end

