-- ==== Sys2Proof/Machine/Contract.lean ====
section
/-! DEFINITION. The host's contract (43_message_function.md R64 to R68): which bytes are fed, how the result is placed
in a byte stream (20_memory.md R25), how it is compared. It binds the host, not the block; no meaning of a command uses
it. -/

namespace Sys2Proof.Machine

/-- The four bytes of a checksum in stream order, most significant first (20_memory.md R25). -/
def bigEndianBytes (v : Word) : List Byte := [byteOf 3 v, byteOf 2 v, byteOf 1 v, byteOf 0 v]

/-- The same bytes least significant first, the order of the residue (43_message_function.md R63); no stream of the
document uses it. -/
def littleEndianBytes (v : Word) : List Byte := [byteOf 0 v, byteOf 1 v, byteOf 2 v, byteOf 3 v]

/-- The wire value of four bytes in stream order (20_memory.md R25). -/
def wireValue (b0 b1 b2 b3 : Byte) : Word :=
  (zext32 b0 <<< 24) ||| (zext32 b1 <<< 16) ||| (zext32 b2 <<< 8) ||| zext32 b3

/-- The message of a chunk: the 4 type bytes, then the payload (43_message_function.md R64). -/
def chunkMessage (t : Vector Byte 4) (p : List Byte) : List Byte := t.toList ++ p

/-- What the host presents for a chunk (43_message_function.md R64). -/
def chunkInputs (t : Vector Byte 4) (p : List Byte) : List Input := messageInputs (chunkMessage t p)

/-- A chunk in the host's memory. Its `length` is its payload's length (43_message_function.md R66). -/
structure Chunk where
  /-- The 4 bytes of the type code. -/
  typeCode : Vector Byte 4
  /-- The payload. -/
  payload : List Byte
  /-- Always a READ response (43_message_function.md R68). -/
  checksum : Word
deriving DecidableEq, Repr

/-- Creation computes the checksum once (43_message_function.md R66). -/
def Chunk.create (t : Vector Byte 4) (p : List Byte) : Chunk :=
  { typeCode := t, payload := p, checksum := crc32 (chunkMessage t p) }

/-- `length(u32) type(4 bytes) data(length bytes) checksum(u32)`, both numbers big-endian (43_message_function.md R65,
R66). A payload whose length is no 32-bit value has no serialised form (log entry 8). -/
def Chunk.serialise (c : Chunk) : Option (List Byte) :=
  if c.payload.length < 2 ^ 32 then
    some (bigEndianBytes (BitVec.ofNat 32 c.payload.length) ++ c.typeCode.toList ++ c.payload
      ++ bigEndianBytes c.checksum)
  else none

/-- The document's seven error kinds, all the host's, none raised by the block (60_exceptions.md R71). -/
inductive HostError where
  | invalidCharacters
  | wrongLength
  | truncated
  | badHeader
  /-- The only kind whose cause involves the block's output (60_exceptions.md R72). -/
  | checksumMismatch
  | notFound
  | notUtf8
deriving DecidableEq, Repr

/-- The host's comparison of a READ response with the wire value; it keeps the response (43_message_function.md R67,
R68). -/
def compareChecksum (response wire : Word) : Except HostError Word :=
  if response = wire then .ok response else .error .checksumMismatch

/-- Step 7 of the host's parse: the chunk is accepted with the recomputed checksum, or `ChecksumMismatch`
(43_message_function.md R67, R68). -/
def verifyChunk (t : Vector Byte 4) (p : List Byte) (wire : Word) : Except HostError Chunk :=
  match compareChecksum (crc32 (chunkMessage t p)) wire with
  | .ok v => .ok { typeCode := t, payload := p, checksum := v }
  | .error e => .error e

end Sys2Proof.Machine
end

