-- ==== Sys2Proof/Machine/Instances.lean ====
section
/-! DEFINITION. Several instances of the block (60_exceptions.md R81): each has its own `crc`, input and output. -/

namespace Sys2Proof.Machine

/-- An input for instance k of a system of n instances (log entry 9: one instance at a time). -/
def applyAt {n : Nat} (k : Fin n) (i : Input) (sys : Vector State n) :
    Host.Outcome (Vector State n) Fault Refusal :=
  match applyInput i sys[k] with
  | .next s' => .next (sys.set k s')
  | .fault r => .fault r
  | .refused r => .refused r

end Sys2Proof.Machine
end

