-- ==== Sys2Proof/Machine/Ports.lean ====
section
/-! DEFINITION. The port-level mapping (70_reset_and_hazards.md R96, informative): one step is one rising edge of `clk`. -/

namespace Sys2Proof.Machine

/-- The inputs sampled at an edge. -/
structure Pins where
  /-- `rst`, synchronous, 1 = reset asserted. -/
  rst : Bool
  /-- `cmd_valid`, 1 = a command word is presented. -/
  cmdValid : Bool
  /-- `cmd[9:0]`. -/
  cmd : CmdWord
deriving DecidableEq, Repr

/-- The input the pins stand for: `cmd_valid = 0` presents nothing. -/
def Pins.toInput (p : Pins) : Input :=
  { reset := p.rst, command := if p.cmdValid then some p.cmd else none }

/-- Output `result[31:0]`: at all times `crc XOR 0xFFFFFFFF`. -/
def resultPort (c : Word) : Word := finalise c

/-- Output `result_valid`: 1 in a step whose command is READ and in which `rst = 0`. -/
def resultValid (p : Pins) : Bool := !p.rst && p.cmdValid && opField p.cmd == 0b11#2

/-- The next-state function per edge, in the order R96 gives its cases. -/
def nextCrc (p : Pins) (c : Word) : Word :=
  if p.rst then 0xFFFFFFFF#32
  else if p.cmdValid && opField p.cmd == 0b01#2 then 0xFFFFFFFF#32
  else if p.cmdValid && opField p.cmd == 0b10#2 then crcStep c (dataField p.cmd)
  else c

end Sys2Proof.Machine
end

