-- ==== Sys2Proof/Safety.lean ====
section
/-! DEFINITION. The states in which no command stops, and what a right register value is. -/

namespace Sys2Proof.Machine

/-- The block has been reset or initialised since power-up (70_reset_and_hazards.md R88), so `crc` holds a value. All
2^32 values are legal (10_state.md R19). -/
abbrev Ready (s : State) : Prop := s.crc.isSome = true

open Polynomial in
/-- `c` holds the remainder of the message m (43_message_function.md R60): with N = 8 len(m), u_(8k+i) = m[k][i], M the
polynomial with u_j as the coefficient of x^(N-1-j) and G the generator, bit i of c is the coefficient of x^(31-i) in
(M x^32 + (x^31 + ... + 1) x^N) mod G over GF(2). -/
def IsRemainderOf (c : Word) (m : List Byte) : Prop :=
  let N : Nat := 8 * m.length
  let u : Nat → ZMod 2 := fun j => if (m.getD (j / 8) 0#8).getLsbD (j % 8) then 1 else 0
  let M : (ZMod 2)[X] := ∑ j ∈ Finset.range N, C (u j) * X ^ (N - 1 - j)
  let G : (ZMod 2)[X] := X ^ 32 + X ^ 26 + X ^ 23 + X ^ 22 + X ^ 16 + X ^ 12 + X ^ 11 + X ^ 10 + X ^ 8 + X ^ 7
    + X ^ 5 + X ^ 4 + X ^ 2 + X + 1
  let R : (ZMod 2)[X] := (M * X ^ 32 + (∑ k ∈ Finset.range 32, X ^ k) * X ^ N) %ₘ G
  ∀ i : Nat, i < 32 → (if c.getLsbD i then (1 : ZMod 2) else 0) = R.coeff (31 - i)

end Sys2Proof.Machine
end

