-- ==== Sys2Proof/Certificates/Slice0/Obligations.lean ====
section
/-! DEFINITION. The statements for the provers, from the numbered rules of spec/. Numbers and polynomials are written
out here from the rules, so that a statement does not lean on a constant of the model. -/

open Sys2Proof Sys2Proof.Machine

/-! ## The four commands -/

/-- 40_control.md R40, the whole rule: IDLE changes neither the state nor any response, whichever of its 256 words
presents it, presenting nothing is IDLE, and removing every IDLE from a sequence changes nothing that follows. -/
def Obligations.IdleDoesNothing : Prop :=
  (∀ s : State, exec .idle s = .next s) ∧
  encode .idle = 0x000#10 ∧
  (∀ data : BitVec 8, decode (0b00#2 ++ data) = .idle) ∧
  (∀ cmd : BitVec 10, ({ rst := false, cmdValid := false, cmd := cmd } : Pins).toInput.does .idle = true) ∧
  (∀ (inputs : List Input) (s : State), runInputs (withoutIdles inputs) s = runInputs inputs s)

/-- 40_control.md R41, the whole rule: INIT writes all-ones in every state (`crc` need hold no value), is idempotent,
changes nothing right after reset, empties the message, and is the only command that shortens it. -/
def Obligations.InitStartsANewMessage : Prop :=
  (∀ s : State, exec .init s = .next { s with crc := some 0xFFFFFFFF#32 }) ∧
  encode .init = 0x100#10 ∧
  (∀ data : BitVec 8, decode (0b01#2 ++ data) = .init) ∧
  exec .init State.reset = .next State.reset ∧
  (∀ s : State, runInputs [Input.ofInstr .init, Input.ofInstr .init] s = runInputs [Input.ofInstr .init] s) ∧
  (∀ s : State, runInputs [Input.ofInstr .init, Input.ofInstr .read] s
    = .next { s with crc := some 0xFFFFFFFF#32, responses := s.responses ++ [0x00000000#32] }) ∧
  (∀ m : List Byte, messageAfter .init m = []) ∧
  (∀ (i : Instr) (m : List Byte), (messageAfter i m).length < m.length → i = .init)

/-- 41_update.md R45, the whole rule, its loop unrolled: UPDATE d completes in every state whose `crc` holds a value and
changes `crc` alone, with the rule's encoding, corner cases and example. -/
def Obligations.UpdateAbsorbsOneByte : Prop :=
  let iteration : BitVec 32 → BitVec 32 := fun c =>
    if c.getLsbD 0 = true then (c >>> 1) ^^^ 0xEDB88320#32 else c >>> 1
  let absorbed : BitVec 32 → BitVec 8 → BitVec 32 := fun c d =>
    iteration (iteration (iteration (iteration (iteration (iteration (iteration (iteration
      (c ^^^ d.setWidth 32))))))))
  (∀ (s : State) (c : Word) (d : Byte), s.crc = some c →
    exec (.update d) s = .next { s with crc := some (absorbed c d) }) ∧
  (∀ d : Byte, encode (.update d) = BitVec.ofNat 10 (0x200 + d.toNat) ∧ decode (0b10#2 ++ d) = .update d) ∧
  (0x04C11DB7#32).reverse = 0xEDB88320#32 ∧
  absorbed 0x00000000#32 0x00#8 = 0x00000000#32 ∧
  absorbed 0xFFFFFFFF#32 0xFF#8 = 0x00FFFFFF#32 ∧
  absorbed 0x000000FF#32 0xFF#8 = 0x00000000#32 ∧
  absorbed 0x00000001#32 0x01#8 = 0x00000000#32 ∧
  absorbed 0x80000000#32 0x00#8 = 0x00800000#32 ∧
  absorbed 0xFFFFFFFF#32 0x31#8 = 0x7C231048#32 ∧
  (∀ (c c' : BitVec 32) (d d' : BitVec 8), c >>> 8 = c' >>> 8 → c.setWidth 8 ^^^ d = c'.setWidth 8 ^^^ d' →
    absorbed c d = absorbed c' d')

/-- 42_result.md R53, the whole rule: READ completes in every state whose `crc` holds a value, responds
`crc XOR 0xFFFFFFFF` and writes nothing else. -/
def Obligations.ReadRespondsTheFinalisedValue : Prop :=
  (∀ (s : State) (c : Word), s.crc = some c →
    exec .read s = .next { s with responses := s.responses ++ [c ^^^ 0xFFFFFFFF#32] }) ∧
  encode .read = 0x300#10 ∧
  (∀ data : BitVec 8, decode (0b11#2 ++ data) = .read) ∧
  (∀ s : State,
    runInputs ([.init, .update 0x31#8, .update 0x32#8, .update 0x33#8, .update 0x34#8, .update 0x35#8, .update 0x36#8,
        .update 0x37#8, .update 0x38#8, .update 0x39#8, .read].map Input.ofInstr) s
      = .next { s with crc := some 0x340BC6D9#32, responses := s.responses ++ [0xCBF43926#32] })

/-! ## Reset, and the interval before it -/

/-- 10_state.md R18: reset leaves 0xFFFFFFFF, the state after INIT, and that is all the block's state there is: the
other two fields of the model's State are the host's side and untouched. -/
def Obligations.ResetLeavesTheStateOfInit : Prop :=
  State.reset.crc = some 0xFFFFFFFF#32 ∧
  Sys2Proof.core.reset = State.reset ∧
  (∀ s : State, applyInput Input.ofReset s = .next { s with crc := State.reset.crc }) ∧
  (∀ s : State, applyInput Input.ofReset s = exec .init s)

/-- 70_reset_and_hazards.md R85 and R87: a step with reset asserted does `crc <- 0xFFFFFFFF` and nothing else, whatever
command word stands beside it, which is what INIT does; so do any number of consecutive ones. -/
def Obligations.ResetWinsOverAnyCommand : Prop :=
  (∀ (s : State) (command : Option CmdWord),
    applyInput { reset := true, command := command } s = .next { s with crc := some 0xFFFFFFFF#32 }) ∧
  (∀ s : State, applyInput Input.ofReset s = exec .init s) ∧
  (∀ (s : State) (first : Option CmdWord) (more : List (Option CmdWord)),
    runInputs ((first :: more).map fun command => { reset := true, command := command }) s
      = .next { s with crc := some 0xFFFFFFFF#32 })

/-- 70_reset_and_hazards.md R86: a model starts after reset; where it represents the interval before (as this
one does, log entry 3), `crc` holds no value and an UPDATE or READ that would read it faults. -/
def Obligations.NoValueBeforeTheFirstReset : Prop :=
  Sys2Proof.core.reset.crc = some 0xFFFFFFFF#32 ∧
  State.powerUp.crc = none ∧
  (∀ s : State, s.crc = none → exec .read s = .fault .crcHasNoValue) ∧
  (∀ (s : State) (d : Byte), s.crc = none → exec (.update d) s = .fault .crcHasNoValue)

/-- Whole-machine rule from 60_exceptions.md section 3 and 93_implementation_defined.md U2: a step stops exactly when
an UPDATE or READ takes effect on a `crc` without a value, and never by a refusal. -/
def Obligations.StepStopsExactlyOnAMissingValue : Prop :=
  ∀ s : State,
    (∀ r : Fault, step s = .fault r ↔ s.crc = none ∧
      ((nextInput s).does .read = true ∨ ∃ d, (nextInput s).does (.update d) = true)) ∧
    (∀ r : Refusal, step s ≠ .refused r)

/-! ## Command words -/

/-- 30_encoding.md R33 and R34: the fields of CMD10 and the one operand, zero-extended. -/
def Obligations.CommandWordFields : Prop :=
  (∀ (op : BitVec 2) (data : BitVec 8), (commandWord op data).toNat = op.toNat * 256 + data.toNat) ∧
  (∀ w : CmdWord, commandWord (opField w) (dataField w) = w) ∧
  (∀ (w : CmdWord) (i : Nat), i < 8 → (dataField w).getLsbD i = w.getLsbD i) ∧
  (∀ (w : CmdWord) (i : Nat), i < 2 → (opField w).getLsbD i = w.getLsbD (8 + i)) ∧
  (∀ (w : CmdWord) (d : Byte), decode w = .update d → d = dataField w) ∧
  (∀ d : Byte, (zext32 d).toNat = d.toNat)

/-- 30_encoding.md R35 and R36: a word selects the one row whose match it has under the mask 0x300; no word is illegal,
the ignored field changes nothing, and what is no command word is rejected. -/
def Obligations.OpcodesPartitionTheWords : Prop :=
  (∀ w : CmdWord,
    (decode w = .idle ↔ w &&& 0x300#10 = 0x000#10) ∧
    (decode w = .init ↔ w &&& 0x300#10 = 0x100#10) ∧
    ((∃ d, decode w = .update d) ↔ w &&& 0x300#10 = 0x200#10) ∧
    (decode w = .read ↔ w &&& 0x300#10 = 0x300#10)) ∧
  (∀ w : CmdWord, ∃! p : BitVec 10, p ∈ [0x000#10, 0x100#10, 0x200#10, 0x300#10] ∧ w &&& 0x300#10 = p) ∧
  (∀ data : BitVec 8, decode (0b00#2 ++ data) = decode 0x000#10 ∧ decode (0b01#2 ++ data) = decode 0x100#10 ∧
    decode (0b11#2 ++ data) = decode 0x300#10) ∧
  (encode .idle = 0x000#10 ∧ encode .init = 0x100#10 ∧ encode .read = 0x300#10 ∧
    ∀ d : Byte, (encode (.update d)).toNat = 0x200 + d.toNat) ∧
  (∀ n : Nat, (∃ i, decodeNat n = .ok i) ↔ n ≤ 1023)

/-- Decode and encode agree, for every command and every operand, and a word decodes back to itself but for its ignored
field (30_encoding.md sections 1 and 2); presented, a canonical word runs exactly its command. -/
def Obligations.DecodeAndEncodeAgree : Prop :=
  (∀ i : Instr, i.wellFormed = true ∧ decode (encode i) = i ∧ decodeNat (encode i).toNat = .ok i) ∧
  (∀ i j : Instr, encode i = encode j → i = j) ∧
  (∀ w : CmdWord, encode (decode w) = if w &&& 0x300#10 = 0x200#10 then w else w &&& 0x300#10) ∧
  (∀ (i : Instr) (s : State), step { s with input := Input.ofWord (encode i) :: s.input } = exec i s)

/-- 95_test_vectors.md section 2.7: words written out bit by bit decode to the command they stand for. -/
def Obligations.SpecWordsDecode : Prop :=
  decode 0b0000000000#10 = .idle ∧ decode 0b0011111111#10 = .idle ∧
  decode 0b0100000000#10 = .init ∧ decode 0b0110101011#10 = .init ∧
  decode 0b1000000000#10 = .update 0x00#8 ∧ decode 0b1000110001#10 = .update 0x31#8 ∧
  decode 0b1011111111#10 = .update 0xFF#8 ∧
  decode 0b1100000000#10 = .read ∧ decode 0b1111111111#10 = .read

/-! ## The step -/

/-- A step is the effect of what the host presents (00_scope.md section 5, 20_memory.md section 4): the decoded command on
the state with that input consumed; the reset event if reset is asserted (70_reset_and_hazards.md section 1). That an
input with neither word nor reset is IDLE is read from 40_control.md IDLE and 70_reset_and_hazards.md section 4, where
`cmd_valid = 0` is the command IDLE: DEDUCED, log entry 1. -/
def Obligations.StepRunsThePresentedCommand : Prop :=
  ∀ (crc : Option Word) (rest : List Input) (responses : List Word),
    (∀ w : CmdWord, step ⟨crc, ⟨false, some w⟩ :: rest, responses⟩ = exec (decode w) ⟨crc, rest, responses⟩) ∧
    step ⟨crc, ⟨false, none⟩ :: rest, responses⟩ = .next ⟨crc, rest, responses⟩ ∧
    (∀ command : Option CmdWord,
      step ⟨crc, ⟨true, command⟩ :: rest, responses⟩ = .next ⟨some 0xFFFFFFFF#32, rest, responses⟩)

/-- The model's choice, log entry 1: a host with nothing left to present presents nothing, which is IDLE. -/
def Obligations.EmptyQueueIsIdle : Prop :=
  ∀ (crc : Option Word) (responses : List Word), step ⟨crc, [], responses⟩ = .next ⟨crc, [], responses⟩

/-- The model's choice, log entries 4 and 5: `withFetchWord` makes the very next step run the word's command, and
nothing else; a number from 1024 up is no command word. -/
def Obligations.FetchWordRunsNext : Prop :=
  ∀ (s : State) (nbits w : Nat),
    (∀ i : Instr, decodeTableWord nbits w = some i → step (s.withFetchWord nbits w) = exec i s) ∧
    (decodeTableWord nbits w = none ↔ 1024 ≤ w % 2 ^ nbits)

/-- Steps on a queue of inputs apply those inputs in the order presented, each complete before the next, and leave the
later inputs in place (20_memory.md section 4). -/
def Obligations.StepsApplyInputsInOrder : Prop :=
  ∀ (inputs rest : List Input) (crc : Option Word) (responses : List Word),
    Sys2Proof.core.run inputs.length ⟨crc, inputs ++ rest, responses⟩ = runInputs inputs ⟨crc, rest, responses⟩

/-! ## What a step can change -/

/-- 10_state.md R11, the whole rule. The first clause is the frame of `crc` over every input; the second says that reset,
INIT and IDLE do not read it; the third that READ is the only way to see it, never without the final XOR; the last that
it is only ever set by reset or INIT followed by UPDATEs. -/
def Obligations.AccessToCrcIsComplete : Prop :=
  (∀ s s' : State, step s = .next s' →
    s'.crc = if (nextInput s).reset then some 0xFFFFFFFF#32 else
      match (nextInput s).presented with
      | .idle => s.crc
      | .init => some 0xFFFFFFFF#32
      | .update d => s.crc.map fun c => crcStep c d
      | .read => s.crc) ∧
  (∀ (s : State) (other : Option Word),
    applyInput Input.ofReset { s with crc := other } = applyInput Input.ofReset s ∧
    exec .init { s with crc := other } = exec .init s ∧
    exec .idle { s with crc := other } = .next { s with crc := other }) ∧
  (∀ s s' : State, step s = .next s' → ∀ v : Word, s'.responses = s.responses ++ [v] →
    (nextInput s).does .read = true ∧ s.crc = some (v ^^^ 0xFFFFFFFF#32)) ∧
  (∀ (inputs : List Input) (s s' : State) (c : Word), s.crc = none → runInputs inputs s = .next s' →
    s'.crc = some c → c = (messageOf inputs).foldl crcStep 0xFFFFFFFF#32)

/-- 42_result.md R56: no command responds `crc` itself; a host recovers it exactly, and a response of zero means
all-ones, the state of the empty message and of some non-empty ones. Every response comes from a READ that took effect. -/
def Obligations.RawRegisterIsNotReadable : Prop :=
  (∀ s s' : State, step s = .next s' → s'.responses = s.responses ∨
    ((nextInput s).does .read = true ∧
      ∃ c : Word, s.crc = some c ∧ s'.responses = s.responses ++ [c ^^^ 0xFFFFFFFF#32])) ∧
  (∀ c : Word, c ^^^ 0xFFFFFFFF#32 ≠ c ∧ (c ^^^ 0xFFFFFFFF#32) ^^^ 0xFFFFFFFF#32 = c) ∧
  (∀ c : Word, c ^^^ 0xFFFFFFFF#32 = 0x00000000#32 ↔ c = 0xFFFFFFFF#32) ∧
  crc32 [0x9D#8, 0x0A#8, 0xD9#8, 0x6D#8] = 0x00000000#32

/-- 10_state.md R17: two blocks with equal `crc` are indistinguishable by any sequence of inputs, whatever their hosts
have presented and received; and a non-empty message can end in the state of the empty one. -/
def Obligations.NoHiddenState : Prop :=
  (∀ (inputs : List Input) (s t : State), s.crc = t.crc →
    (∃ (crc : Option Word) (new : List Word),
      runInputs inputs s = .next { s with crc := crc, responses := s.responses ++ new } ∧
      runInputs inputs t = .next { t with crc := crc, responses := t.responses ++ new }) ∨
    (runInputs inputs s = .fault .crcHasNoValue ∧ runInputs inputs t = .fault .crcHasNoValue)) ∧
  (∀ s : State, runInputs ([.init, .update 0x9D#8, .update 0x0A#8, .update 0xD9#8, .update 0x6D#8].map Input.ofInstr) s
    = .next { s with crc := some 0xFFFFFFFF#32 })

/-- An invariant that every step keeps, with progress (60_exceptions.md section 3, 70_reset_and_hazards.md section 2):
a block whose `crc` holds a value goes on, still holds one, consumes one input, and retracts no response. -/
def Obligations.ReadyIsKeptByEveryStep : Prop :=
  ∀ s : State, Ready s →
    ∃ s' : State, step s = .next s' ∧ Ready s' ∧ s'.input = s.input.tail ∧
      ∃ new : List Word, s'.responses = s.responses ++ new ∧ new.length ≤ 1

/-- The invariants hold after reset. -/
def Obligations.ReadyAtReset : Prop := Ready State.reset ∧ ¬ Ready State.powerUp

/-- 60_exceptions.md section 3: no run of a block that has been reset ever stops. -/
def Obligations.EveryRunGoesOn : Prop :=
  ∀ (n : Nat) (s : State), Ready s → ∃ s' : State, Sys2Proof.core.run n s = .next s' ∧ Ready s'

/-- 10_state.md R19: every value of `crc` is a legal state in which every command is enabled, and from any value to any
other there is exactly one sequence of four UPDATE bytes. -/
def Obligations.FourBytesReachEveryValueOnce : Prop :=
  (∀ (c : Word) (i : Instr) (input : List Input) (responses : List Word),
    ∃ s' : State, exec i ⟨some c, input, responses⟩ = .next s') ∧
  (∀ (c t : Word) (input : List Input) (responses : List Word), ∃! b : Byte × Byte × Byte × Byte,
    runInputs ([.update b.1, .update b.2.1, .update b.2.2.1, .update b.2.2.2].map Input.ofInstr)
      ⟨some c, input, responses⟩ = .next ⟨some t, input, responses⟩)

/-! ## The step function -/

/-- The step is linear over GF(2) in the register and the byte together (41_update.md section 3). -/
def Obligations.StepIsLinear : Prop :=
  ∀ (a b : Word) (d e : Byte), crcStep (a ^^^ b) (d ^^^ e) = crcStep a d ^^^ crcStep b e

/-- 41_update.md R46 and 10_state.md R12: the left-shifting form with the polynomial as the document writes it holds the
bit reversal of `crc` at every step boundary, and READ responds the same number. -/
def Obligations.LeftShiftingFormAgrees : Prop :=
  (∀ (c : Word) (d : Byte), bitrev32 (leftStep (bitrev32 c) d) = crcStep c d) ∧
  (∀ c : Word, leftFinalise (bitrev32 c) = c ^^^ 0xFFFFFFFF#32) ∧
  bitrev32 0xFFFFFFFF#32 = 0xFFFFFFFF#32 ∧
  (∀ (m : List Byte) (c : Word), m.foldl leftStep (bitrev32 c) = bitrev32 (m.foldl crcStep c)) ∧
  (∀ m : List Byte, leftFinalise (m.foldl leftStep 0xFFFFFFFF#32) = crc32 m)

/-- 41_update.md R47: the bit-serial form, bit 0 of the byte first, equals the byte step; its feedback taps are the set
bits of 0xEDB88320. -/
def Obligations.BitSerialFormAgrees : Prop :=
  (∀ (c : Word) (d : Byte), serialStep c d = crcStep c d) ∧
  (∀ i : Nat, (0xEDB88320#32).getLsbD i = true ↔ i ∈ [31, 30, 29, 27, 26, 24, 23, 21, 20, 19, 15, 9, 8, 5])

/-- 41_update.md R48: the table form equals the byte step, T being the step on `crc = 0`. -/
def Obligations.TableFormAgrees : Prop :=
  (∀ k : Byte, tableEntry k = crcStep 0x00000000#32 k) ∧
  (∀ (c : Word) (d : Byte), tableStep c d = crcStep c d) ∧
  (∀ (c : Word) (d : Byte),
    crcStep c d = crcStep 0x00000000#32 ((c ^^^ d.setWidth 32).setWidth 8) ^^^ (c >>> 8))

/-- 41_update.md R49: the 256 listed values are the step on `crc = 0`. -/
def Obligations.ListedTableIsTheStep : Prop :=
  crcTable.length = 256 ∧
  (∀ k : Byte, crcTable[k.toNat]? = some (crcStep 0x00000000#32 k)) ∧
  crcTable[1]? = some 0x77073096#32 ∧ crcTable[128]? = some 0xEDB88320#32 ∧ crcTable[255]? = some 0x2D02EF8D#32

/-- 41_update.md R52, the whole rule: the step is a bijection for each byte, undone by the table's top bytes; its
consequences for messages and states; and no command undoes an UPDATE. -/
def Obligations.StepCanBeUndone : Prop :=
  (∀ d : Byte, Function.Bijective fun c : Word => crcStep c d) ∧
  (∀ j k : Byte, byteOf 3 (crcStep 0x00000000#32 j) = byteOf 3 (crcStep 0x00000000#32 k) → j = k) ∧
  (∀ (c : Word) (d k : Byte), byteOf 3 (crcStep 0x00000000#32 k) = byteOf 3 (crcStep c d) →
    c >>> 8 = (crcStep c d ^^^ crcStep 0x00000000#32 k) &&& 0x00FFFFFF#32 ∧ c.setWidth 8 = k ^^^ d) ∧
  (∀ (c : Word) (d : Byte), undoStep (crcStep c d) d = c ∧ crcStep (undoStep c d) d = c) ∧
  (∀ (p q : List Byte) (d e : Byte) (c : Word), d ≠ e →
    (p ++ d :: q).foldl crcStep c ≠ (p ++ e :: q).foldl crcStep c) ∧
  (∀ c : Word, ∃ d : Byte, crcStep c d ≠ c) ∧
  crcStep 0x00000000#32 0x01#8 = 0x77073096#32 ∧
  (∀ (d : Byte) (i : Instr), ¬ ∀ c : Word,
    runInputs [Input.ofInstr (.update d), Input.ofInstr i] ⟨some c, [], []⟩ = .next ⟨some c, [], []⟩)

/-- 41_update.md section 1: the values of the readings of the parameter words for "123456789", and the reading the spec
takes is the block's function for every message. -/
def Obligations.OnlyTheSpecReadingGivesTheCheckValue : Prop :=
  let m : List Byte := [0x31#8, 0x32#8, 0x33#8, 0x34#8, 0x35#8, 0x36#8, 0x37#8, 0x38#8, 0x39#8]
  (∀ m : List Byte, Reading.value ⟨true, true, 0xFFFFFFFF#32, 0xFFFFFFFF#32⟩ m = crc32 m) ∧
  Reading.value ⟨true, true, 0xFFFFFFFF#32, 0xFFFFFFFF#32⟩ m = 0xCBF43926#32 ∧
  Reading.value ⟨false, false, 0xFFFFFFFF#32, 0xFFFFFFFF#32⟩ m = 0xFC891918#32 ∧
  Reading.value ⟨true, false, 0xFFFFFFFF#32, 0xFFFFFFFF#32⟩ m = 0x649C2FD3#32 ∧
  Reading.value ⟨false, true, 0xFFFFFFFF#32, 0xFFFFFFFF#32⟩ m = 0x1898913F#32 ∧
  Reading.value ⟨true, true, 0xFFFFFFFF#32, 0x00000000#32⟩ m = 0x340BC6D9#32 ∧
  Reading.value ⟨true, true, 0x00000000#32, 0xFFFFFFFF#32⟩ m = 0xD202D277#32 ∧
  Reading.value ⟨true, true, 0x00000000#32, 0x00000000#32⟩ m = 0x2DFD2D88#32 ∧
  Reading.value ⟨false, false, 0xFFFFFFFF#32, 0x00000000#32⟩ m = 0x0376E6E7#32

/-! ## Messages -/

/-- 43_message_function.md R57: INIT, the UPDATEs of m, READ, from any state (one without a value too), gets exactly one
response, and it is a function of m alone. -/
def Obligations.MessageValueIsAFunctionOfTheMessage : Prop :=
  ∀ m : List Byte, ∃ v : Word, v = crc32 m ∧ ∀ s : State, ∃ c : Word,
    runInputs (Input.ofInstr .init :: (m.map fun d => Input.ofInstr (.update d)) ++ [Input.ofInstr .read]) s
      = .next { s with crc := some c, responses := s.responses ++ [v] }

/-- 43_message_function.md R58: the fold form, composition, feeding in pieces with IDLEs and READs between, and that the
length of the second piece matters. -/
def Obligations.MessagesCompose : Prop :=
  (∀ m : List Byte, crc32 m = (m.foldl crcStep 0xFFFFFFFF#32) ^^^ 0xFFFFFFFF#32) ∧
  (∀ (c : Word) (a b : List Byte), runBytes c (a ++ b) = runBytes (runBytes c a) b ∧ runBytes c [] = c) ∧
  (∀ (s : State) (c : Word) (a b : List Byte) (between : List Input), s.crc = some c →
    (∀ i ∈ between, i.does .idle = true ∨ i.does .read = true) →
    ∃ s' : State, runInputs (updateInputs a ++ between ++ updateInputs b) s = .next s' ∧
      s'.crc = some (runBytes c (a ++ b))) ∧
  (∃ a b b' : List Byte, crc32 b = crc32 b' ∧ crc32 (a ++ b) ≠ crc32 (a ++ b'))

/-- 43_message_function.md R59: the check value. -/
def Obligations.CheckValue : Prop :=
  crc32 [0x31#8, 0x32#8, 0x33#8, 0x34#8, 0x35#8, 0x36#8, 0x37#8, 0x38#8, 0x39#8] = 0xCBF43926#32

/-- Whole-machine meaning of the register, for any start: after any inputs `crc` is the running value of the message
(20_memory.md sections 1 and 4), and the responses are the finalised values of the message at each READ. -/
def Obligations.RunsFollowTheMessage : Prop :=
  ∀ (inputs : List Input) (m : List Byte) (s : State), s.crc = some (m.foldl crcStep 0xFFFFFFFF#32) →
    runInputs inputs s
      = .next { s with
          crc := some ((inputs.foldl messageStep m).foldl crcStep 0xFFFFFFFF#32)
          responses := s.responses ++ responsesFrom m inputs }

/-- 42_result.md R54, with the hazards of 70_reset_and_hazards.md R90 and R92: a READ ends nothing, consecutive READs
respond the same, and the UPDATEs after it continue the same message. -/
def Obligations.ReadDoesNotEndTheMessage : Prop :=
  (∀ (s : State) (c : Word) (n : Nat), s.crc = some c →
    runInputs (List.replicate n (Input.ofInstr .read)) s
      = .next { s with responses := s.responses ++ List.replicate n (c ^^^ 0xFFFFFFFF#32) }) ∧
  (∀ (s : State) (a b : List Byte),
    runInputs (Input.ofInstr .init :: updateInputs a ++ [Input.ofInstr .read] ++ updateInputs b
        ++ [Input.ofInstr .read]) s
      = .next { s with
          crc := some ((a ++ b).foldl crcStep 0xFFFFFFFF#32)
          responses := s.responses ++ [crc32 a, crc32 (a ++ b)] }) ∧
  (crc32 [0x61#8] = 0xE8B7BE43#32 ∧ crc32 [0x61#8, 0x62#8, 0x63#8] = 0x352441C2#32) ∧
  (crc32 [0x49#8, 0x45#8, 0x4E#8, 0x44#8] = 0xAE426082#32 ∧
    crc32 [0x49#8, 0x45#8, 0x4E#8, 0x44#8, 0x61#8, 0x62#8, 0x63#8] ≠ crc32 [0x61#8, 0x62#8, 0x63#8])

/-- 42_result.md R55: the empty message, after INIT and after reset. -/
def Obligations.EmptyMessageRespondsZero : Prop :=
  ∀ (s : State) (first : Input), first = Input.ofInstr .init ∨ first.reset = true →
    runInputs [first, Input.ofInstr .read] s
      = .next { s with crc := some 0xFFFFFFFF#32, responses := s.responses ++ [0x00000000#32] }

/-- 70_reset_and_hazards.md R89: after reset the INIT of the first message may be left out; IDLEs and READs anywhere in
a span leave the message's value. -/
def Obligations.OrderOfAMessage : Prop :=
  ∀ (s : State) (first : Input) (span : List Input) (m : List Byte),
    first = Input.ofInstr .init ∨ first.reset = true →
    (span.filter fun i => !(i.does .idle || i.does .read)) = updateInputs m →
    ∃ s' s'' : State, runInputs (first :: span) s = .next s' ∧ exec .read s' = .next s'' ∧
      s''.responses = s'.responses ++ [crc32 m]

open Polynomial in
/-- 43_message_function.md R60, the whole rule: after INIT and the UPDATEs of m, bit i of `crc` is the coefficient of
x^(31-i) in (M x^32 + (x^31 + ... + 1) x^N) mod G over GF(2), whatever the state before. -/
def Obligations.RegisterIsThePolynomialRemainder : Prop :=
  ∀ (m : List Byte) (s : State),
    let N : Nat := 8 * m.length
    let u : Nat → ZMod 2 := fun j => if (m.getD (j / 8) 0#8).getLsbD (j % 8) then 1 else 0
    let M : (ZMod 2)[X] := ∑ j ∈ Finset.range N, C (u j) * X ^ (N - 1 - j)
    let G : (ZMod 2)[X] := X ^ 32 + X ^ 26 + X ^ 23 + X ^ 22 + X ^ 16 + X ^ 12 + X ^ 11 + X ^ 10 + X ^ 8 + X ^ 7
      + X ^ 5 + X ^ 4 + X ^ 2 + X + 1
    let R : (ZMod 2)[X] := (M * X ^ 32 + (∑ k ∈ Finset.range 32, X ^ k) * X ^ N) %ₘ G
    ∃ c : Word, runInputs (Input.ofInstr .init :: updateInputs m) s = .next { s with crc := some c } ∧
      (∀ i : Nat, i < 32 → (if c.getLsbD i then (1 : ZMod 2) else 0) = R.coeff (31 - i)) ∧
      crc32 m = c ^^^ 0xFFFFFFFF#32

/-- The polynomial meaning of the register as an invariant that every step keeps, over all states (43_message_function.md
section 2 with 20_memory.md section 1): if `crc` holds the remainder of the message so far, then after a step it holds
the remainder of the message after that step. -/
def Obligations.RemainderOfTheMessageIsKeptByEveryStep : Prop :=
  ∀ (s s' : State) (m : List Byte) (c : Word), s.crc = some c → IsRemainderOf c m → step s = .next s' →
    ∃ c' : Word, s'.crc = some c' ∧ IsRemainderOf c' (messageStep m (nextInput s))

/-- That invariant holds after reset, for the empty message. -/
def Obligations.RemainderAtReset : Prop := ∃ c : Word, State.reset.crc = some c ∧ IsRemainderOf c []

/-- 43_message_function.md R61: the affine law for three messages of one length, that the difference of two values
depends only on the difference of the messages and the length, and that `CRC32` is not linear. -/
def Obligations.AffineLaw : Prop :=
  let xor := fun a b : List Byte => List.zipWith (· ^^^ ·) a b
  (∀ a b c : List Byte, a.length = b.length → b.length = c.length →
    crc32 (xor (xor a b) c) = crc32 a ^^^ crc32 b ^^^ crc32 c) ∧
  (∀ a b a' b' : List Byte, a.length = b.length → a'.length = b'.length → a.length = a'.length →
    xor a b = xor a' b' → crc32 a ^^^ crc32 b = crc32 a' ^^^ crc32 b') ∧
  crc32 [] = 0x00000000#32 ∧ crc32 [0x00#8] = 0xD202EF8D#32 ∧
  (∃ a b : List Byte, a.length = b.length ∧ crc32 (xor a b) ≠ crc32 a ^^^ crc32 b)

/-- 43_message_function.md R62: single-bit changes and changes inside four consecutive bytes are always detected, a
flipped bit of the wire value is detected, and neither holds for wider changes or for changes of both parts. -/
def Obligations.ErrorDetection : Prop :=
  (∀ (p q : List Byte) (d : Byte) (i : Nat), i < 8 →
    crc32 (p ++ (d ^^^ BitVec.twoPow 8 i) :: q) ≠ crc32 (p ++ d :: q)) ∧
  (∀ p q a b : List Byte, a.length = b.length → a.length ≤ 4 → a ≠ b →
    crc32 (p ++ a ++ q) ≠ crc32 (p ++ b ++ q)) ∧
  (∀ (t : Vector Byte 4) (p q : List Byte) (d : Byte) (i : Nat), i < 8 →
    verifyChunk t (p ++ (d ^^^ BitVec.twoPow 8 i) :: q) (crc32 (chunkMessage t (p ++ d :: q)))
      = .error .checksumMismatch) ∧
  (∀ (t : Vector Byte 4) (p : List Byte) (i : Nat), i < 32 →
    verifyChunk t p (crc32 (chunkMessage t p) ^^^ BitVec.twoPow 32 i) = .error .checksumMismatch) ∧
  (∃ a b : List Byte, a.length = b.length ∧ a ≠ b ∧ crc32 a = crc32 b) ∧
  (∀ (t : Vector Byte 4) (p : List Byte), ∃ wire : Word, verifyChunk t p wire = .ok (Chunk.create t p))

/-- 43_message_function.md R63: fed least significant byte first, the checksum leads every message to one constant; in
the document's stream order it does not. -/
def Obligations.ResidueOnlyForTheOtherByteOrder : Prop :=
  (∀ m : List Byte, (m ++ littleEndianBytes (crc32 m)).foldl crcStep 0xFFFFFFFF#32 = 0xDEBB20E3#32) ∧
  0xDEBB20E3#32 ^^^ 0xFFFFFFFF#32 = 0x2144DF1C#32 ∧
  (let m : List Byte := [0x31#8, 0x32#8, 0x33#8, 0x34#8, 0x35#8, 0x36#8, 0x37#8, 0x38#8, 0x39#8]
   (m ++ bigEndianBytes (crc32 m)).foldl crcStep 0xFFFFFFFF#32 = 0xC3368BD3#32) ∧
  (¬ ∃ c : Word, ∀ m : List Byte, (m ++ bigEndianBytes (crc32 m)).foldl crcStep 0xFFFFFFFF#32 = c)

/-- Idempotence: a second IDLE or INIT changes nothing, a second READ changes no `crc`, a second UPDATE of the same byte
absorbs a second byte (20_memory.md section 3); a second reset changes nothing (70_reset_and_hazards.md section 1). -/
def Obligations.OnlyUpdateIsNotIdempotent : Prop :=
  (∀ (s : State) (i : Input), i.reset = true ∨ i.does .idle = true ∨ i.does .init = true →
    runInputs [i, i] s = runInputs [i] s) ∧
  (∀ (s : State) (c : Word), s.crc = some c → ∃ s' : State,
    runInputs [Input.ofInstr .read, Input.ofInstr .read] s = .next s' ∧ s'.crc = some c) ∧
  (∀ (s : State) (c : Word) (d : Byte), s.crc = some c →
    runInputs [Input.ofInstr (.update d), Input.ofInstr (.update d)] s
      = .next { s with crc := some ([d, d].foldl crcStep c) }) ∧
  (∃ (c : Word) (d : Byte), crcStep (crcStep c d) d ≠ crcStep c d)

/-! ## Ports, instances, assembler -/

/-- 70_reset_and_hazards.md R96: per edge, the next-state function, `result` and `result_valid` of the ports are what
the block does with the input the pins stand for. -/
def Obligations.PortsAgreeWithTheBlock : Prop :=
  (∀ c : Word, resultPort c = c ^^^ 0xFFFFFFFF#32) ∧
  (∀ (p : Pins) (s : State) (c : Word), s.crc = some c →
    applyInput p.toInput s = .next { s with
      crc := some (if p.rst then 0xFFFFFFFF#32
        else if p.cmdValid ∧ p.cmd.extractLsb' 8 2 = 0b01#2 then 0xFFFFFFFF#32
        else if p.cmdValid ∧ p.cmd.extractLsb' 8 2 = 0b10#2 then crcStep c (p.cmd.extractLsb' 0 8)
        else c)
      responses := s.responses ++ if resultValid p then [resultPort c] else [] }) ∧
  (∀ (p : Pins) (c : Word), applyInput p.toInput ⟨some c, [], []⟩
    = .next ⟨some (nextCrc p c), [], if resultValid p then [resultPort c] else []⟩) ∧
  (∀ p : Pins, resultValid p = true ↔ p.rst = false ∧ p.toInput.presented = .read) ∧
  (∀ p : Pins, p.cmdValid = false → p.toInput.presented = .idle)

/-- Instances share no state (60_exceptions.md section 4): an input to one instance is the block's own step there and
changes no other instance, and an input that stops stops on that instance's account. -/
def Obligations.InstancesShareNothing : Prop :=
  ∀ (n : Nat) (sys : Vector State n) (k : Fin n) (i : Input),
    (∀ sys' : Vector State n, applyAt k i sys = .next sys' →
      applyInput i sys[k] = .next sys'[k] ∧ ∀ j : Fin n, j ≠ k → sys'[j] = sys[j]) ∧
    (∀ s' : State, applyInput i sys[k] = .next s' → ∃ sys', applyAt k i sys = .next sys' ∧ sys'[k] = s')

/-- 30_encoding.md section 3. UPDATES expands to one UPDATE a byte, in order, and to nothing with no byte; CRC32 to INIT,
those UPDATEs, READ, and to INIT, READ for the empty text (the pseudo-instructions UPDATES and CRC32 there). The bytes of
a row of operands that is not one text are the operands' own bytes, in order. The three forms of a byte operand and the
error for 256 are the operand syntax of the same section. That the first clause's CRC32 takes an empty row too is the
model's choice: DESIGN CHOICE, log entry 7. -/
def Obligations.PseudoInstructionsExpand : Prop :=
  (∀ (operands : List Token) (bytes : List Byte), byteOperands operands = .ok bytes →
    assembleTokens (.word ['U', 'P', 'D', 'A', 'T', 'E', 'S'] :: operands)
      = .ok (bytes.map fun d => Input.ofInstr (.update d)) ∧
    assembleTokens (.word ['C', 'R', 'C', '3', '2'] :: operands)
      = .ok (Input.ofInstr .init :: (bytes.map fun d => Input.ofInstr (.update d)) ++ [Input.ofInstr .read])) ∧
  (∀ (operands : List Token) (bytes : List Byte), (∀ cs : List Char, operands ≠ [.text cs]) →
    (byteOperands operands = .ok bytes ↔ operands.map byteOperand = bytes.map .ok)) ∧
  (∀ cs : List Char, (∀ c ∈ cs, 32 ≤ c.toNat ∧ c.toNat ≤ 126) →
    byteOperands [.text cs] = .ok (cs.map fun c => BitVec.ofNat 8 c.toNat)) ∧
  assemble "UPDATES" = .ok [] ∧
  assemble "CRC32 \"\"" = .ok [Input.ofInstr .init, Input.ofInstr .read] ∧
  (assemble "UPDATE 0x31" = .ok [Input.ofInstr (.update 0x31#8)] ∧
    assemble "UPDATE 49" = .ok [Input.ofInstr (.update 0x31#8)] ∧
    assemble "UPDATE '1'" = .ok [Input.ofInstr (.update 0x31#8)]) ∧
  assemble "UPDATE 256" = .error .operandOutOfRange

/-! ## The host's contract -/

/-- 20_memory.md R25: the four bytes of a checksum in stream order, and the wire value of four bytes. -/
def Obligations.ChecksumBytesAreBigEndian : Prop :=
  (∀ v : Word, bigEndianBytes v
    = [v.extractLsb' 24 8, v.extractLsb' 16 8, v.extractLsb' 8 8, v.extractLsb' 0 8]) ∧
  (∀ b0 b1 b2 b3 : Byte, (wireValue b0 b1 b2 b3).toNat
    = b0.toNat * 2 ^ 24 + b1.toNat * 2 ^ 16 + b2.toNat * 2 ^ 8 + b3.toNat) ∧
  (∀ v : Word, wireValue (v.extractLsb' 24 8) (v.extractLsb' 16 8) (v.extractLsb' 8 8) (v.extractLsb' 0 8) = v) ∧
  bigEndianBytes (crc32 [0x31#8, 0x32#8, 0x33#8, 0x34#8, 0x35#8, 0x36#8, 0x37#8, 0x38#8, 0x39#8])
    = [0xCB#8, 0xF4#8, 0x39#8, 0x26#8]

/-- 43_message_function.md R64 and R66: what the host presents for a chunk and what it gets, what creation computes, and
where the checksum stands in the serialised chunk. -/
def Obligations.ChunkChecksum : Prop :=
  (∀ (t : Vector Byte 4) (p : List Byte) (s : State),
    chunkInputs t p = [Input.ofInstr .init, Input.ofInstr (.update t[0]), Input.ofInstr (.update t[1]),
        Input.ofInstr (.update t[2]), Input.ofInstr (.update t[3])]
      ++ (p.map fun d => Input.ofInstr (.update d)) ++ [Input.ofInstr .read] ∧
    (chunkMessage t p).length = 4 + p.length ∧
    ∃ c : Word, runInputs (chunkInputs t p) s
      = .next { s with crc := some c, responses := s.responses ++ [(Chunk.create t p).checksum] }) ∧
  (∀ (t : Vector Byte 4) (p : List Byte), p.length < 2 ^ 32 → ∃ bytes : List Byte,
    (Chunk.create t p).serialise = some bytes ∧ bytes.length = 12 + p.length ∧
    (bytes.drop 4).take (4 + p.length) = chunkMessage t p ∧
    bytes.drop (8 + p.length) = bigEndianBytes (crc32 (chunkMessage t p)) ∧
    bytes.take 4 = bigEndianBytes (BitVec.ofNat 32 p.length))

/-- 43_message_function.md R67 and R68: a chunk is accepted when the READ response of its message equals the wire value,
and then holds that response; otherwise the host reports `ChecksumMismatch`. -/
def Obligations.VerificationComparesTheResponse : Prop :=
  ∀ (t : Vector Byte 4) (p : List Byte) (wire : Word) (s : State), ∃ (c response : Word),
    runInputs (chunkInputs t p) s = .next { s with crc := some c, responses := s.responses ++ [response] } ∧
    (response = wire → verifyChunk t p wire = .ok ⟨t, p, response⟩) ∧
    (response ≠ wire → verifyChunk t p wire = .error .checksumMismatch)

/-- 43_message_function.md R69: the corrected value of the document's worked chunk, and the message its literal belongs
to. -/
def Obligations.WorkedChunkValueCorrected : Prop :=
  crc32 [0x52#8, 0x75#8, 0x53#8, 0x74#8, 0x52#8, 0x75#8, 0x73#8, 0x74#8] = 0x2A7D1A8A#32 ∧
  (0x2A7D1A8A#32).toNat = 712841866 ∧
  crc32 ("RuStThis is where your secret message will be!".toList.map fun c => BitVec.ofNat 8 c.toNat)
    = 0xABD1D84E#32 ∧
  (0xABD1D84E#32).toNat = 2882656334 ∧
  "RuStThis is where your secret message will be!".toList.length = 46
end

