-- ==== Sys2Proof/Laws/Assembler.lean ====
section
/-! SUPPORT. The operands of a pseudo-instruction, one lemma per form. -/

namespace Sys2Proof.Machine

@[simp] theorem byteOperands_text (cs : List Char) : byteOperands [.text cs] = cs.mapM byteOfChar := rfl

/-- A row of operands that is not one text is read operand by operand. -/
theorem byteOperands_row {ops : List Token} (h : ∀ cs : List Char, ops ≠ [.text cs]) :
    byteOperands ops = ops.mapM byteOperand := by
  unfold byteOperands
  split
  · exact absurd rfl (h _)
  · rfl

end Sys2Proof.Machine
end

