-- ==== Sys2Proof/Laws/Decode.lean ====
section
/-! SUPPORT. The fields of a command word and the decoder on a word given by its fields. -/

namespace Sys2Proof

theorem getLsbD_commandWord (op : BitVec 2) (data : Byte) (i : Nat) :
    (commandWord op data).getLsbD i = if i < 8 then data.getLsbD i else op.getLsbD (i - 8) :=
  BitVec.getLsbD_append

@[simp] theorem opField_commandWord (op : BitVec 2) (data : Byte) : opField (commandWord op data) = op := by
  ext i hi
  simp [opField, getLsbD_commandWord, hi]

@[simp] theorem dataField_commandWord (op : BitVec 2) (data : Byte) : dataField (commandWord op data) = data := by
  ext i hi
  simp [dataField, getLsbD_commandWord, hi]

theorem commandWord_fields (w : CmdWord) : commandWord (opField w) (dataField w) = w := by
  unfold commandWord opField dataField
  ext i hi
  rw [BitVec.getElem_append]
  split
  · simp [BitVec.getLsbD_eq_getElem hi]
  · have h : 8 + (i - 8) = i := by omega
    simp [h, BitVec.getLsbD_eq_getElem hi]

/-- The number of a word is `op * 256 + data` (30_encoding.md R33). -/
theorem commandWord_toNat (op : BitVec 2) (data : Byte) :
    (commandWord op data).toNat = op.toNat * 256 + data.toNat := by
  unfold commandWord
  rw [BitVec.toNat_append, Nat.shiftLeft_eq, Nat.mul_comm, ← Nat.two_pow_add_eq_or_of_lt data.isLt]

@[simp] theorem decode_commandWord_idle (data : Byte) : decode (commandWord 0b00#2 data) = .idle := by
  simp [decode]

@[simp] theorem decode_commandWord_init (data : Byte) : decode (commandWord 0b01#2 data) = .init := by
  simp [decode]

@[simp] theorem decode_commandWord_update (data : Byte) : decode (commandWord 0b10#2 data) = .update data := by
  simp [decode]

@[simp] theorem decode_commandWord_read (data : Byte) : decode (commandWord 0b11#2 data) = .read := by
  simp [decode]

/-- A word is one of the four rows of the opcode map. -/
theorem commandWord_cases (w : CmdWord) : ∃ data : Byte,
    w = commandWord 0b00#2 data ∨ w = commandWord 0b01#2 data ∨ w = commandWord 0b10#2 data ∨
      w = commandWord 0b11#2 data := by
  refine ⟨dataField w, ?_⟩
  have h : ∀ op : BitVec 2, op = 0b00#2 ∨ op = 0b01#2 ∨ op = 0b10#2 ∨ op = 0b11#2 := by decide
  rcases h (opField w) with e | e | e | e
  · exact .inl (e ▸ (commandWord_fields w).symm)
  · exact .inr (.inl (e ▸ (commandWord_fields w).symm))
  · exact .inr (.inr (.inl (e ▸ (commandWord_fields w).symm)))
  · exact .inr (.inr (.inr (e ▸ (commandWord_fields w).symm)))

end Sys2Proof
end

