-- ==== Sys2Proof/Laws/Gf2.lean ====
section
/-! SUPPORT. The bit-step as arithmetic over GF(2) (41_update.md R50): it is additive in XOR, it can be undone, and it is
a plain shift while the low bits are zero. -/

namespace Sys2Proof.Machine

/-- The bit-step without a branch between two registers. -/
theorem bitStep_eq (c : Word) :
    bitStep c = (c >>> 1) ^^^ (if c.getLsbD 0 then Config.polyReflected else 0#32) := by
  unfold bitStep; split <;> simp

@[simp] theorem bitStep_zero : bitStep 0#32 = 0#32 := by decide

theorem bitStep_xor (a b : Word) : bitStep (a ^^^ b) = bitStep a ^^^ bitStep b := by
  simp only [bitStep_eq, BitVec.getLsbD_xor, BitVec.ushiftRight_xor_distrib]
  cases a.getLsbD 0 <;> cases b.getLsbD 0 <;>
    simp [BitVec.xor_assoc, BitVec.xor_comm Config.polyReflected]

/-- The top bit of a bit-step is the bit that left. -/
theorem bitStep_top (c : Word) : (bitStep c).getLsbD 31 = c.getLsbD 0 := by
  rw [bitStep_eq]
  cases c.getLsbD 0 <;> simp [Config.polyReflected]

theorem bitStep_injective : Function.Injective bitStep := by
  intro a b h
  have h0 : a.getLsbD 0 = b.getLsbD 0 := by rw [← bitStep_top, ← bitStep_top, h]
  rw [bitStep_eq, bitStep_eq, h0, BitVec.xor_left_inj] at h
  apply BitVec.eq_of_getLsbD_eq
  intro i hi
  cases i with
  | zero => exact h0
  | succ k =>
    have := congrArg (fun v : Word => v.getLsbD k) h
    simpa [Nat.add_comm] using this

theorem bitSteps_xor (n : Nat) (a b : Word) : bitStep^[n] (a ^^^ b) = bitStep^[n] a ^^^ bitStep^[n] b := by
  induction n generalizing a b with
  | zero => rfl
  | succ n ih => simp only [Function.iterate_succ, Function.comp, bitStep_xor, ih]

@[simp] theorem bitSteps_zero (n : Nat) : bitStep^[n] 0#32 = 0#32 := by
  induction n with
  | zero => rfl
  | succ n ih => rw [Function.iterate_succ_apply, bitStep_zero, ih]

/-- While the n low bits are zero, n bit-steps are a shift by n. -/
theorem bitSteps_shift (n : Nat) (c : Word) (h : ∀ i < n, c.getLsbD i = false) : bitStep^[n] c = c >>> n := by
  induction n generalizing c with
  | zero => simp
  | succ n ih =>
    have h0 : bitStep c = c >>> 1 := by rw [bitStep_eq, h 0 (by omega)]; simp
    rw [Function.iterate_succ_apply, h0, ih, ← BitVec.shiftRight_add, Nat.add_comm]
    intro i hi
    simpa [Nat.add_comm] using h (i + 1) (by omega)

theorem zext32_xor (d e : Byte) : zext32 (d ^^^ e) = zext32 d ^^^ zext32 e := by
  simp [zext32, BitVec.setWidth_xor]

theorem zext32_injective : Function.Injective zext32 := by
  intro d e h
  simpa [zext32] using congrArg (BitVec.setWidth 8) h

theorem crcStep_injective (d : Byte) : Function.Injective fun c : Word => crcStep c d := by
  intro a b h
  exact (BitVec.xor_left_inj _).mp (bitStep_injective.iterate 8 h)

/-- Different bytes never lead one register to one value. -/
theorem crcStep_byte_injective (c : Word) : Function.Injective fun d : Byte => crcStep c d := by
  intro d e h
  exact zext32_injective ((BitVec.xor_right_inj _).mp (bitStep_injective.iterate 8 h))

/-- A value as its low byte and its upper bits. -/
theorem low_xor_high (v : Word) : v = zext32 (byteOf 0 v) ^^^ ((v >>> 8) <<< 8) := by
  apply BitVec.eq_of_getLsbD_eq
  intro i hi
  by_cases h : i < 8
  · simp [zext32, byteOf, h, hi]
  · have e : 8 + (i - 8) = i := by omega
    simp [zext32, byteOf, h, hi, e]

/-- Eight bit-steps of a value: those of its low byte, and its upper bits shifted by 8 (41_update.md R48). -/
theorem bitSteps_low_high (v : Word) : bitStep^[8] v = bitStep^[8] (zext32 (byteOf 0 v)) ^^^ (v >>> 8) := by
  conv_lhs => rw [low_xor_high v]
  rw [bitSteps_xor, bitSteps_shift 8 ((v >>> 8) <<< 8) (by intro i hi; simp [hi])]
  congr 1
  apply BitVec.eq_of_getLsbD_eq
  intro i hi
  by_cases h : i < 24
  · simp; omega
  · have : v.getLsbD (8 + i) = false := BitVec.getLsbD_of_ge v (8 + i) (by omega)
    simp [this]

/-- A byte placed k bits up is at the bottom after k bit-steps. -/
theorem bitSteps_placed (d : Byte) {k : Nat} (hk : k ≤ 24) : bitStep^[k] (zext32 d <<< k) = zext32 d := by
  rw [bitSteps_shift _ _ (by intro i hi; simp [hi])]
  apply BitVec.eq_of_getLsbD_eq
  intro i hi
  by_cases h : i < 8
  · have h1 : k + i < 32 := by omega
    simp [zext32, h, hi, h1]
  · have : d.getLsbD i = false := BitVec.getLsbD_of_ge d i (by omega)
    simp [zext32, this]

/-- Bit-reversal turns the right-shifting bit-step into the left-shifting one (90_conflicts.md C5). -/
theorem leftBit_bitrev32 (c : Word) : leftBit (bitrev32 c) = bitrev32 (bitStep c) := by
  have hp : Config.poly = bitrev32 Config.polyReflected := by decide +kernel
  have hs : (bitrev32 c) <<< 1 = bitrev32 (c >>> 1) := by
    apply BitVec.eq_of_getLsbD_eq
    intro i hi
    simp only [bitrev32, BitVec.getLsbD_shiftLeft, BitVec.getLsbD_reverse, BitVec.getMsbD_eq_getLsbD,
      BitVec.getLsbD_ushiftRight]
    cases i with
    | zero => simp
    | succ k =>
      have h1 : k < 32 := by omega
      have h2 : 1 + (30 - k) = 31 - k := by omega
      simp [hi, h1, h2]
  have hx : ∀ a b : Word, bitrev32 (a ^^^ b) = bitrev32 a ^^^ bitrev32 b := by
    intro a b
    apply BitVec.eq_of_getLsbD_eq
    intro i hi
    simp [bitrev32, BitVec.getLsbD_reverse]
  have h31 : (bitrev32 c).getLsbD 31 = c.getLsbD 0 := by
    rw [bitrev32, BitVec.getLsbD_reverse, BitVec.getMsbD_eq_getLsbD]; rfl
  unfold leftBit bitStep
  rw [h31, hs]
  split
  · rw [hx, hp]
  · rfl

end Sys2Proof.Machine
end

