-- ==== Sys2Proof/Laws/PerInstr.lean ====
section
/-! SUPPORT. The family `Encoding`: what is said of each command as syntax. -/

namespace Sys2Proof.Laws.Encoding

/-- The command is well-formed and its canonical word decodes to it. -/
def Statement (i : Instr) : Prop := i.wellFormed = true ∧ decode (encode i) = i

theorem idle : Statement .idle := ⟨rfl, decode_commandWord_idle 0#8⟩

theorem init : Statement .init := ⟨rfl, decode_commandWord_init 0#8⟩

theorem update (d : Byte) : Statement (.update d) :=
  ⟨by simpa [Instr.wellFormed, isByteOperand] using d.isLt, decode_commandWord_update d⟩

theorem read : Statement .read := ⟨rfl, decode_commandWord_read 0#8⟩

end Sys2Proof.Laws.Encoding
end

