-- ==== Sys2Proof/Laws/State.lean ====
section
/-! SUPPORT. What each update of the state does to each field. -/

namespace Sys2Proof.Machine

@[simp] theorem writeCrc_crc (v : Word) (s : State) : (writeCrc v s).crc = some v := rfl
@[simp] theorem writeCrc_input (v : Word) (s : State) : (writeCrc v s).input = s.input := rfl
@[simp] theorem writeCrc_responses (v : Word) (s : State) : (writeCrc v s).responses = s.responses := rfl

@[simp] theorem respond_crc (v : Word) (s : State) : (respond v s).crc = s.crc := rfl
@[simp] theorem respond_input (v : Word) (s : State) : (respond v s).input = s.input := rfl
@[simp] theorem respond_responses (v : Word) (s : State) : (respond v s).responses = s.responses ++ [v] := rfl

@[simp] theorem consumeInput_crc (s : State) : (consumeInput s).crc = s.crc := rfl
@[simp] theorem consumeInput_input (s : State) : (consumeInput s).input = s.input.tail := rfl
@[simp] theorem consumeInput_responses (s : State) : (consumeInput s).responses = s.responses := rfl

@[simp] theorem takeReset_crc (s : State) : (takeReset s).crc = some Config.resetValue := rfl
@[simp] theorem takeReset_input (s : State) : (takeReset s).input = s.input := rfl
@[simp] theorem takeReset_responses (s : State) : (takeReset s).responses = s.responses := rfl

@[simp] theorem reset_crc : State.reset.crc = some Config.resetValue := rfl
@[simp] theorem reset_input : State.reset.input = [] := rfl
@[simp] theorem reset_responses : State.reset.responses = [] := rfl

@[simp] theorem powerUp_crc : State.powerUp.crc = none := rfl
@[simp] theorem powerUp_input : State.powerUp.input = [] := rfl
@[simp] theorem powerUp_responses : State.powerUp.responses = [] := rfl

end Sys2Proof.Machine
end

