-- ==== Sys2Proof/Laws/Step.lean ====
section
/-! SUPPORT. What one input can do, said once: the value of each command, of an input, and the inversion lemma that
later proofs cite instead of unfolding. -/

namespace Sys2Proof.Machine

theorem withCrc_some {s : State} {c : Word} (h : s.crc = some c) (k : Word → State) :
    withCrc s k = .next (k c) := by simp [withCrc, h]

theorem withCrc_none {s : State} (h : s.crc = none) (k : Word → State) :
    withCrc s k = .fault .crcHasNoValue := by simp [withCrc, h]

@[simp] theorem execIdle_eq (s : State) : exec .idle s = .next s := rfl

@[simp] theorem execInit_eq (s : State) : exec .init s = .next (writeCrc Config.initialValue s) := rfl

theorem execUpdate_eq {s : State} {c : Word} (h : s.crc = some c) (d : Byte) :
    exec (.update d) s = .next (writeCrc (crcStep c d) s) := withCrc_some h _

theorem execRead_eq {s : State} {c : Word} (h : s.crc = some c) :
    exec .read s = .next (respond (finalise c) s) := withCrc_some h _

@[simp] theorem ofWord_reset (w : CmdWord) : (Input.ofWord w).reset = false := rfl
@[simp] theorem ofWord_presented (w : CmdWord) : (Input.ofWord w).presented = decode w := rfl
@[simp] theorem ofInstr_reset (i : Instr) : (Input.ofInstr i).reset = false := rfl

@[simp] theorem ofInstr_presented (i : Instr) : (Input.ofInstr i).presented = i := by
  cases i with
  | idle => exact Laws.Encoding.idle.2
  | init => exact Laws.Encoding.init.2
  | update d => exact (Laws.Encoding.update d).2
  | read => exact Laws.Encoding.read.2

@[simp] theorem nothing_reset : Input.nothing.reset = false := rfl
@[simp] theorem nothing_presented : Input.nothing.presented = .idle := rfl
@[simp] theorem ofReset_reset : Input.ofReset.reset = true := rfl

theorem applyInput_reset {i : Input} (h : i.reset = true) (s : State) :
    applyInput i s = .next (takeReset s) := by simp [applyInput, h]

theorem applyInput_command {i : Input} (h : i.reset = false) (s : State) :
    applyInput i s = exec i.presented s := by simp [applyInput, h]

@[simp] theorem applyInput_ofInstr (i : Instr) (s : State) : applyInput (Input.ofInstr i) s = exec i s := by
  rw [applyInput_command rfl, ofInstr_presented]

/-- Everything one input can do when the block goes on. -/
theorem applyInput_next {i : Input} {s s' : State} (h : applyInput i s = .next s') :
    (i.reset = true ∧ s' = takeReset s) ∨
    (i.reset = false ∧ i.presented = .idle ∧ s' = s) ∨
    (i.reset = false ∧ i.presented = .init ∧ s' = writeCrc Config.initialValue s) ∨
    (i.reset = false ∧ ∃ d c, i.presented = .update d ∧ s.crc = some c ∧ s' = writeCrc (crcStep c d) s) ∨
    (i.reset = false ∧ i.presented = .read ∧ ∃ c, s.crc = some c ∧ s' = respond (finalise c) s) := by
  cases hr : i.reset with
  | true => rw [applyInput_reset hr] at h; cases h; simp
  | false =>
    rw [applyInput_command hr] at h
    cases hp : i.presented with
    | idle => rw [hp] at h; cases h; simp
    | init => rw [hp] at h; cases h; simp
    | update d =>
      rw [hp] at h
      cases hc : s.crc with
      | none => simp [exec, execUpdate, withCrc_none hc] at h
      | some c => rw [execUpdate_eq hc] at h; cases h; simp
    | read =>
      rw [hp] at h
      cases hc : s.crc with
      | none => simp [exec, execRead, withCrc_none hc] at h
      | some c => rw [execRead_eq hc] at h; cases h; simp

/-- An input stops the block only by reading a `crc` that has no value. -/
theorem applyInput_stops {i : Input} {s : State} :
    (∃ s', applyInput i s = .next s') ∨
    (applyInput i s = .fault .crcHasNoValue ∧ s.crc = none ∧ i.reset = false ∧
      (i.presented = .read ∨ ∃ d, i.presented = .update d)) := by
  cases hr : i.reset with
  | true => exact .inl ⟨_, applyInput_reset hr s⟩
  | false =>
    rw [applyInput_command hr]
    cases hp : i.presented with
    | idle => exact .inl ⟨_, rfl⟩
    | init => exact .inl ⟨_, rfl⟩
    | update d =>
      cases hc : s.crc with
      | none => exact .inr ⟨withCrc_none hc _, rfl, rfl, .inr ⟨d, rfl⟩⟩
      | some c => exact .inl ⟨_, execUpdate_eq hc d⟩
    | read =>
      cases hc : s.crc with
      | none => exact .inr ⟨withCrc_none hc _, rfl, rfl, .inl rfl⟩
      | some c => exact .inl ⟨_, execRead_eq hc⟩

/-- A block that holds a value goes on and still holds one. -/
theorem applyInput_of_ready {i : Input} {s : State} (h : s.crc.isSome = true) :
    ∃ s', applyInput i s = .next s' ∧ s'.crc.isSome = true := by
  rcases applyInput_stops (i := i) (s := s) with ⟨s', e⟩ | ⟨_, hn, _⟩
  · refine ⟨s', e, ?_⟩
    rcases applyInput_next e with ⟨_, rfl⟩ | ⟨_, _, rfl⟩ | ⟨_, _, rfl⟩ | ⟨_, d, c, _, _, rfl⟩ | ⟨_, _, c, hc, rfl⟩ <;>
      simp_all
  · simp [hn] at h

/-- The register after an input does not depend on the host's side of the state. -/
theorem applyInput_host_side (i : Input) (s : State) (input : List Input) (responses : List Word) :
    (∃ crc new, applyInput i s = .next { s with crc := crc, responses := s.responses ++ new } ∧
      applyInput i { crc := s.crc, input := input, responses := responses }
        = .next { crc := crc, input := input, responses := responses ++ new }) ∨
    (applyInput i s = .fault .crcHasNoValue ∧
      applyInput i { crc := s.crc, input := input, responses := responses } = .fault .crcHasNoValue) := by
  obtain ⟨crc, inp, resp⟩ := s
  cases hr : i.reset with
  | true => exact .inl ⟨some Config.resetValue, [], by simp [applyInput, hr, takeReset, writeCrc]⟩
  | false =>
    simp only [applyInput_command hr]
    cases i.presented with
    | idle => exact .inl ⟨crc, [], by simp⟩
    | init => exact .inl ⟨some Config.initialValue, [], by simp [writeCrc]⟩
    | update d =>
      cases crc with
      | none => exact .inr ⟨rfl, rfl⟩
      | some c => exact .inl ⟨some (crcStep c d), [], by simp [exec, execUpdate, withCrc, writeCrc]⟩
    | read =>
      cases crc with
      | none => exact .inr ⟨rfl, rfl⟩
      | some c => exact .inl ⟨some c, [finalise c], by simp [exec, execRead, withCrc, respond]⟩

@[simp] theorem runInputs_nil (s : State) : runInputs [] s = .next s := rfl

theorem runInputs_cons {i : Input} {s s' : State} (h : applyInput i s = .next s') (rest : List Input) :
    runInputs (i :: rest) s = runInputs rest s' := by simp [runInputs, h]

theorem runInputs_cons_fault {i : Input} {s : State} {r : Fault} (h : applyInput i s = .fault r) (rest : List Input) :
    runInputs (i :: rest) s = .fault r := by simp [runInputs, h]

/-- Two sequences one after the other. -/
theorem runInputs_append {xs ys : List Input} {s s' : State} (h : runInputs xs s = .next s') :
    runInputs (xs ++ ys) s = runInputs ys s' := by
  induction xs generalizing s with
  | nil => cases h; rfl
  | cons i rest ih =>
    rcases applyInput_stops (i := i) (s := s) with ⟨t, e⟩ | ⟨e, _⟩
    · rw [List.cons_append, runInputs_cons e]
      exact ih (by rwa [runInputs_cons e] at h)
    · rw [runInputs_cons_fault e] at h; cases h

/-- A step on a queue that is not empty applies the first input. -/
theorem step_cons (crc : Option Word) (i : Input) (rest : List Input) (responses : List Word) :
    step { crc := crc, input := i :: rest, responses := responses }
      = applyInput i { crc := crc, input := rest, responses := responses } := rfl

end Sys2Proof.Machine
end

