-- ==== Sys2Proof/Laws/Message.lean ====
section
/-! SUPPORT. Input sequences and messages. -/

namespace Sys2Proof.Machine

@[simp] theorem runBytes_nil (c : Word) : runBytes c [] = c := rfl
@[simp] theorem runBytes_cons (c : Word) (d : Byte) (m : List Byte) :
    runBytes c (d :: m) = runBytes (crcStep c d) m := rfl

theorem runBytes_concat (c : Word) (m : List Byte) (d : Byte) :
    runBytes c (m ++ [d]) = crcStep (runBytes c m) d := by simp [runBytes]

@[simp] theorem updateInputs_nil : updateInputs [] = [] := rfl
@[simp] theorem updateInputs_cons (d : Byte) (m : List Byte) :
    updateInputs (d :: m) = Input.ofInstr (.update d) :: updateInputs m := rfl
@[simp] theorem updateInputs_append (a b : List Byte) :
    updateInputs (a ++ b) = updateInputs a ++ updateInputs b := List.map_append

theorem does_iff {i : Input} {c : Instr} : i.does c = true ↔ i.reset = false ∧ i.presented = c := by
  simp [Input.does]

/-- The UPDATEs of a byte sequence fold the step over it and touch nothing else. -/
theorem runInputs_updates (m : List Byte) {s : State} {c : Word} (h : s.crc = some c) :
    runInputs (updateInputs m) s = .next (if m = [] then s else writeCrc (runBytes c m) s) := by
  induction m generalizing s c with
  | nil => rfl
  | cons d m ih =>
    rw [updateInputs_cons, runInputs_cons (s' := writeCrc (crcStep c d) s)
      (by rw [applyInput_ofInstr, execUpdate_eq h]), ih (writeCrc_crc _ _)]
    by_cases hm : m = [] <;> simp [hm, writeCrc]

/-- The same with the register's value written out. -/
theorem runInputs_updates_crc (m : List Byte) {s : State} {c : Word} (h : s.crc = some c) :
    runInputs (updateInputs m) s = .next { s with crc := some (runBytes c m) } := by
  rw [runInputs_updates m h]
  by_cases hm : m = []
  · obtain ⟨crc, input, responses⟩ := s
    cases h
    simp [hm]
  · simp [hm, writeCrc]

end Sys2Proof.Machine
end

