-- ==== Sys2Proof/Laws/Polynomial.lean ====
section
/-! SUPPORT. The register as a polynomial over GF(2): bit i is the coefficient of x^(31-i) (43_message_function.md R60),
and a bit-step multiplies by x modulo G (41_update.md R50). -/

open Polynomial

namespace Sys2Proof.Machine

/-- A bit as an element of GF(2). -/
def gf2 (b : Bool) : ZMod 2 := if b then 1 else 0

@[simp] theorem gf2_xor (a b : Bool) : gf2 (a ^^ b) = gf2 a + gf2 b := by
  cases a <;> cases b <;> decide

@[simp] theorem gf2_false : gf2 false = 0 := rfl
@[simp] theorem gf2_true : gf2 true = 1 := rfl

/-- The register's polynomial, of degree below 32. -/
noncomputable def regPoly (c : Word) : (ZMod 2)[X] :=
  ∑ i ∈ Finset.range 32, C (gf2 (c.getLsbD i)) * X ^ (31 - i)

/-- The generator polynomial G (41_update.md R44). -/
noncomputable def generator : (ZMod 2)[X] :=
  X ^ 32 + X ^ 26 + X ^ 23 + X ^ 22 + X ^ 16 + X ^ 12 + X ^ 11 + X ^ 10 + X ^ 8 + X ^ 7 + X ^ 5 + X ^ 4 + X ^ 2 + X + 1

theorem regPoly_xor (a b : Word) : regPoly (a ^^^ b) = regPoly a + regPoly b := by
  simp [regPoly, ← Finset.sum_add_distrib, add_mul]

theorem regPoly_coeff (c : Word) {i : Nat} (hi : i < 32) : (regPoly c).coeff (31 - i) = gf2 (c.getLsbD i) := by
  rw [regPoly, finsetSum_coeff, Finset.sum_eq_single i]
  · simp
  · intro j hj hne
    have hj' := Finset.mem_range.mp hj
    rw [coeff_C_mul, coeff_X_pow, if_neg (by omega), mul_zero]
  · intro h; exact absurd (Finset.mem_range.mpr hi) h

theorem regPoly_degree (c : Word) : (regPoly c).degree < 32 := by
  apply lt_of_le_of_lt (degree_sum_le _ _)
  rw [Finset.sup_lt_iff (by decide)]
  intro i _
  apply lt_of_le_of_lt (degree_C_mul_X_pow_le _ _)
  exact_mod_cast (by omega : 31 - i < 32)

theorem two_eq_zero : (2 : (ZMod 2)[X]) = 0 := by
  have h : (2 : ZMod 2) = 0 := by decide
  rw [← C_ofNat, h, C_0]

theorem add_self_eq_zero' (p : (ZMod 2)[X]) : p + p = 0 := by
  rw [← two_mul, two_eq_zero, zero_mul]

theorem regPoly_shift (c : Word) : regPoly (c >>> 1) + C (gf2 (c.getLsbD 0)) * X ^ 32 = X * regPoly c := by
  rw [regPoly, regPoly, Finset.sum_range_succ, Finset.sum_range_succ' _ 31, mul_add, Finset.mul_sum]
  have h31 : (c >>> 1).getLsbD 31 = false := by simp
  rw [h31, gf2_false, C_0, zero_mul, add_zero]
  refine congrArg₂ (· + ·) ?_ ?_
  · apply Finset.sum_congr rfl
    intro i hi
    have hi' := Finset.mem_range.mp hi
    have e : 31 - i = 31 - (i + 1) + 1 := by omega
    rw [BitVec.getLsbD_ushiftRight, Nat.add_comm 1 i, e, pow_succ]
    ring
  · ring

theorem regPoly_polyReflected : regPoly Config.polyReflected + X ^ 32 = generator := by
  have h : ∀ i < 32, Config.polyReflected.getLsbD i
      = decide (i ∈ [31, 30, 29, 27, 26, 24, 23, 21, 20, 19, 15, 9, 8, 5]) := by decide +kernel
  rw [regPoly, Finset.sum_congr rfl (g := fun i =>
    C (gf2 (decide (i ∈ [31, 30, 29, 27, 26, 24, 23, 21, 20, 19, 15, 9, 8, 5]))) * X ^ (31 - i))]
  · simp [Finset.sum_range_succ, gf2, generator]
    ring
  · intro i hi
    rw [h i (Finset.mem_range.mp hi)]

/-- One bit-step multiplies by x modulo G (41_update.md R50). -/
theorem regPoly_bitStep (c : Word) :
    regPoly (bitStep c) = X * regPoly c + C (gf2 (c.getLsbD 0)) * generator := by
  have hs := regPoly_shift c
  rw [bitStep_eq, regPoly_xor, ← hs, ← regPoly_polyReflected]
  cases c.getLsbD 0 with
  | false => simp [regPoly]
  | true =>
    simp only [if_true, gf2_true, C_1, one_mul]
    linear_combination -(add_self_eq_zero' ((X : (ZMod 2)[X]) ^ 32))

theorem generator_dvd_bitSteps (n : Nat) (c : Word) :
    generator ∣ regPoly (bitStep^[n] c) - X ^ n * regPoly c := by
  induction n with
  | zero => simp
  | succ n ih =>
    obtain ⟨q, hq⟩ := ih
    rw [Function.iterate_succ_apply', regPoly_bitStep]
    refine ⟨X * q + C (gf2 ((bitStep^[n] c).getLsbD 0)), ?_⟩
    rw [pow_succ]
    linear_combination X * hq

/-- All-ones is the polynomial of the initial value (43_message_function.md R60). -/
theorem regPoly_allOnes : regPoly 0xFFFFFFFF#32 = ∑ k ∈ Finset.range 32, X ^ k := by
  have h : ∀ i < 32, (0xFFFFFFFF#32).getLsbD (32 - 1 - i) = true := by decide +kernel
  unfold regPoly
  rw [← Finset.sum_range_reflect]
  apply Finset.sum_congr rfl
  intro i hi
  have hi' := Finset.mem_range.mp hi
  have e : 31 - (31 - i) = i := by omega
  rw [h i hi']
  simp [e]

theorem generator_monic : generator.Monic := by
  unfold generator
  monicity!

theorem generator_degree : generator.degree = 32 := by
  unfold generator
  compute_degree!

end Sys2Proof.Machine
end

