-- ==== Sys2Proof/Laws/Run.lean ====
section
/-! SUPPORT. The host's `Core.run`, one step at a time. -/

namespace Sys2Proof.Machine

theorem core_run_succ {M : Host.Core} {s s' : M.State} (h : M.step s = .next s') (n : Nat) :
    M.run (n + 1) s = M.run n s' := by simp [Host.Core.run, h]

theorem core_run_succ_fault {M : Host.Core} {s : M.State} {r : M.Fault} (h : M.step s = .fault r) (n : Nat) :
    M.run (n + 1) s = .fault r := by simp [Host.Core.run, h]

theorem run_zero (s : State) : Sys2Proof.core.run 0 s = .next s := rfl

/-- A step of the block is a step of the host's run. -/
theorem run_succ {s s' : State} (h : step s = .next s') (n : Nat) :
    Sys2Proof.core.run (n + 1) s = Sys2Proof.core.run n s' :=
  core_run_succ (M := Sys2Proof.core) h n

theorem run_succ_fault {s : State} {r : Fault} (h : step s = .fault r) (n : Nat) :
    Sys2Proof.core.run (n + 1) s = .fault r :=
  core_run_succ_fault (M := Sys2Proof.core) h n

end Sys2Proof.Machine
end

