-- ==== Sys2Proof/Machine/Flags.lean ====
section
/-! DEFINITION. Nothing is declared here, on purpose: "There are no flags, condition codes or predicates" and "No
command writes a status bit as a side effect" (10_state.md R14). No operation of the block can carry or overflow
(41_update.md R50). -/
end

