-- ==== Sys2Proof/Tests/Slice0.lean ====
section
/-! SUPPORT. The model's own tests. Expected values are the spec's: 95_test_vectors.md, or the rule named. -/

namespace Sys2Proof.Tests

open Sys2Proof.Machine

/-- A block that holds `c`, whose host presents `inputs` next. -/
def blockWith (c : Word) (inputs : List Input) : State := { crc := some c, input := inputs, responses := [] }

/-! ## What the checks refuse -/

theorem test_command_word_bound : isCommandWord 1023 = true ∧ isCommandWord 1024 = false := by decide

theorem test_byte_operand_bound : isByteOperand 255 = true ∧ isByteOperand 256 = false := by decide

theorem test_decode_rejects_by_name : decodeNat 1024 = .error .notACommandWord := by rfl

/-! ## Decoding: words written out from 30_encoding.md R33 and R35, values of 95 section 2.7 -/

theorem test_decode_idle : decode 0b0000000000#10 = .idle ∧ decode 0b0011111111#10 = .idle := by decide

theorem test_decode_init : decode 0b0100000000#10 = .init ∧ decode 0b0110101011#10 = .init := by decide

theorem test_decode_update : decode 0b1000110001#10 = .update 0x31#8 ∧ decode 0b1011111111#10 = .update 0xFF#8 := by decide

theorem test_decode_read : decode 0b1100000000#10 = .read ∧ decode 0b1111111111#10 = .read := by decide

theorem test_encode_canonical :
    [encode .idle, encode .init, encode (.update 0x31#8), encode .read] = [0x000#10, 0x100#10, 0x231#10, 0x300#10] := by
  decide

theorem test_table_word : decodeTableWord 16 0x231 = some (.update 0x31#8) ∧ decodeTableWord 16 0x400 = none := by decide

/-! ## One step of each command -/

/-- 95 section 2.1. -/
theorem test_idle_step : step (blockWith 0x7C231048#32 [.ofWord 0x0FF#10]) = .next (blockWith 0x7C231048#32 []) := rfl

/-- 95 section 2.1. -/
theorem test_init_step : step (blockWith 0x12345678#32 [.ofWord 0x1AB#10]) = .next (blockWith 0xFFFFFFFF#32 []) := rfl

/-- 95 section 2.2, the register after each of the eight iterations. -/
theorem test_update_bit_by_bit :
    (List.range 9).map (fun n => bitStep^[n] 0xFFFFFFCE#32)
      = [0xFFFFFFCE#32, 0x7FFFFFE7#32, 0xD2477CD3#32, 0x849B3D49#32, 0xAFF51D84#32, 0x57FA8EC2#32, 0x2BFD4761#32,
         0xF8462090#32, 0x7C231048#32] := by decide +kernel

/-- 95 section 2.3. -/
theorem test_update_values :
    [crcStep 0x00000000#32 0x80#8, crcStep 0xFFFFFFFF#32 0x00#8, crcStep 0x12345678#32 0xAB#8,
      crcStep 0xDEADBEEF#32 0x00#8]
      = [0xEDB88320#32, 0x2DFD1072#32, 0x1FC8B738#32, 0x306B5257#32] := by decide +kernel

/-- 95 section 1.1, last line. -/
theorem test_read_step : step (blockWith 0x340BC6D9#32 [.ofWord 0x300#10])
    = .next { crc := some 0x340BC6D9#32, input := [], responses := [0xCBF43926#32] } := rfl

/-- 95 section 2.9: reset together with UPDATE 0x36; the UPDATE is dropped. -/
theorem test_reset_wins : step (blockWith 0x340AC5E3#32 [{ reset := true, command := some 0x236#10 }])
    = .next (blockWith 0xFFFFFFFF#32 []) := rfl

/-- 95 section 2.9, first row. -/
theorem test_reset_before_first_reset : applyInput Input.ofReset State.powerUp = .next State.reset := rfl

/-- `withFetchWord` presents the word in the very next step. -/
theorem test_fetch_word : step (State.reset.withFetchWord 16 0x300)
    = .next { crc := some 0xFFFFFFFF#32, input := [], responses := [0x00000000#32] } := rfl

/-! ## Values of messages (95 sections 2.4, 1.1), forms (2.6), table (41 R49), contract (P4), assembler (section 3) -/

theorem test_message_values :
    [crc32 [0x49#8, 0x48#8, 0x44#8, 0x52#8], crc32 [0x00#8, 0x61#8, 0x62#8, 0x63#8],
      crc32 [0x61#8, 0x62#8, 0x63#8, 0x00#8], crc32 (List.replicate 32 0xFF#8)]
      = [0xA8A1AE0A#32, 0xEB2147CC#32, 0xA75D6850#32, 0xFF6CAB0B#32] := by decide +kernel

theorem test_left_form_bit_by_bit :
    [leftStep 0xFFFFFFFF#32 0x31#8, bitrev32 0x1208C43E#32] = [0x1208C43E#32, 0x7C231048#32] := by decide +kernel

theorem test_inverse_step : topIndex 0x7C#8 = 206#8 ∧ undoStep 0x7C231048#32 0x31#8 = 0xFFFFFFFF#32 := by decide +kernel

theorem test_serialised_chunk :
    (Chunk.create #v[0x49#8, 0x45#8, 0x4E#8, 0x44#8] []).serialise
      = some [0x00#8, 0x00#8, 0x00#8, 0x00#8, 0x49#8, 0x45#8, 0x4E#8, 0x44#8, 0xAE#8, 0x42#8, 0x60#8, 0x82#8] := by
  decide +kernel

theorem test_mismatch_reported :
    verifyChunk #v[0x52#8, 0x75#8, 0x53#8, 0x74#8] [0x72#8, 0x75#8, 0x73#8, 0x74#8] 0x2A7D1A8A#32
      = .error .checksumMismatch := by decide +kernel

theorem test_assemble_listing :
    (assemble "RESET  ; start\nUPDATE 'a' ; 261\n\nUPDATES \"b;\" ; text\nREAD").map (·.map (·.command))
      = .ok [none, some 0x261#10, some 0x262#10, some 0x23B#10, some 0x300#10] := by decide +kernel

theorem test_assembly_errors :
    assemble "UPDATE 0x100" = .error .operandOutOfRange ∧ assemble "UPDATE" = .error .badLine ∧
      assemble "READ 1" = .error .badLine ∧ assemble "UPDATE ''" = .error .badQuote := by decide +kernel

/-! ## Witnesses: for each statement with hypotheses, a state and operands that meet them together -/

theorem witness_InitStartsANewMessage : (messageAfter .init [0x61#8]).length < [0x61#8].length := by decide

theorem witness_UpdateAbsorbsOneByte : State.reset.crc = some 0xFFFFFFFF#32 ∧
    (0x101#32 >>> 8 = 0x100#32 >>> 8 ∧ (0x101#32).setWidth 8 ^^^ 0x00#8 = (0x100#32).setWidth 8 ^^^ 0x01#8) := by decide

theorem witness_ReadRespondsTheFinalisedValue : (blockWith 0x00000000#32 []).crc = some 0x00000000#32 := rfl

theorem witness_NoValueBeforeTheFirstReset : State.powerUp.crc = none := rfl

theorem witness_CommandWordFields : (7 : Nat) < 8 ∧ (1 : Nat) < 2 ∧ decode 0x2FF#10 = .update 0xFF#8 := by decide

theorem witness_DecodeAndEncodeAgree : encode (.update 0xFF#8) = encode (.update 0xFF#8) := rfl

theorem witness_FetchWordRunsNext : decodeTableWord 16 0x3FF = some .read ∧ decodeTableWord 16 0x400 = none := by decide

theorem witness_AccessToCrcIsComplete :
    step (blockWith 0xFFFFFFFF#32 [.ofInstr .read])
      = .next { crc := some 0xFFFFFFFF#32, input := [], responses := [] ++ [0x00000000#32] } ∧
    State.powerUp.crc = none ∧
    runInputs [.ofInstr .idle, .ofInstr .init, .ofInstr (.update 0xFF#8)] State.powerUp
      = .next { State.powerUp with crc := some 0x00FFFFFF#32 } := ⟨rfl, rfl, rfl⟩

theorem witness_RawRegisterIsNotReadable : step State.reset = .next State.reset := rfl

theorem witness_NoHiddenState : (blockWith 0x00000000#32 []).crc
    = ({ crc := some 0x00000000#32, input := [Input.ofReset], responses := [0x00000000#32] } : State).crc := rfl

theorem witness_ReadyIsKeptByEveryStep : Ready (blockWith 0x00000000#32 [.ofInstr .read]) := rfl

theorem witness_EveryRunGoesOn : Ready State.reset := rfl

theorem witness_BitSerialFormAgrees : (31 : Nat) ∈ [31, 30, 29, 27, 26, 24, 23, 21, 20, 19, 15, 9, 8, 5] := by decide

theorem witness_StepCanBeUndone :
    byteOf 3 (crcStep 0x00000000#32 0xCE#8) = byteOf 3 (crcStep 0xFFFFFFFF#32 0x31#8) ∧ (0x00#8 : Byte) ≠ 0x80#8 ∧
    byteOf 3 (crcStep 0x00000000#32 0xFF#8) = byteOf 3 (crcStep 0x00000000#32 0xFF#8) := by decide +kernel

theorem witness_MessagesCompose : (blockWith 0xFFFFFFFF#32 []).crc = some 0xFFFFFFFF#32 ∧
    ∀ i ∈ [Input.nothing, Input.ofWord 0x3FF#10], i.does .idle = true ∨ i.does .read = true := by decide

theorem witness_RunsFollowTheMessage :
    (blockWith 0x00FFFFFF#32 []).crc = some ([0xFF#8].foldl crcStep 0xFFFFFFFF#32) := by decide +kernel

theorem witness_ReadDoesNotEndTheMessage : State.reset.crc = some 0xFFFFFFFF#32 := rfl

theorem witness_EmptyMessageRespondsZero : Input.ofInstr .init = Input.ofInstr .init ∧
    ({ reset := true, command := some 0x300#10 } : Input).reset = true := ⟨rfl, rfl⟩

theorem witness_OrderOfAMessage : Input.ofReset.reset = true ∧
    ([Input.ofInstr (.update 0x61#8), Input.nothing, Input.ofInstr .read, Input.ofInstr (.update 0x62#8)].filter
      fun i => !(i.does .idle || i.does .read)) = updateInputs [0x61#8, 0x62#8] := by decide

open Polynomial in
theorem witness_RemainderOfTheMessageIsKeptByEveryStep :
    (blockWith 0xFFFFFFFF#32 [.ofInstr (.update 0xFF#8)]).crc = some 0xFFFFFFFF#32 ∧ IsRemainderOf 0xFFFFFFFF#32 [] ∧
    step (blockWith 0xFFFFFFFF#32 [.ofInstr (.update 0xFF#8)]) = .next (blockWith 0x00FFFFFF#32 []) := by
  refine ⟨rfl, ?_, rfl⟩
  unfold IsRemainderOf
  intro N u M G R i hi
  have hR : R = regPoly 0xFFFFFFFF#32 := by
    rw [show R = (M * X ^ 32 + (∑ k ∈ Finset.range 32, X ^ k) * X ^ N) %ₘ generator from rfl, ← regPoly_allOnes,
      show M = 0 from rfl, show N = 0 from rfl, zero_mul, zero_add, pow_zero, mul_one,
      (modByMonic_eq_self_iff generator_monic).mpr]
    rw [generator_degree]; exact regPoly_degree _
  rw [hR, regPoly_coeff _ hi]; rfl

theorem witness_AffineLaw : [0x61#8, 0x62#8, 0x63#8].length = [0x49#8, 0x45#8, 0x4E#8].length ∧
    [0x49#8, 0x45#8, 0x4E#8].length = [0x31#8, 0x32#8, 0x33#8].length ∧
    List.zipWith (· ^^^ ·) [0x61#8] [0x62#8] = List.zipWith (· ^^^ ·) [0x01#8] [0x02#8] := by decide

theorem witness_ErrorDetection : (7 : Nat) < 8 ∧ (31 : Nat) < 32 ∧
    [0x00#8, 0x00#8, 0x00#8, 0x00#8].length = [0x00#8, 0x00#8, 0x00#8, 0x01#8].length ∧
    [0x00#8, 0x00#8, 0x00#8, 0x00#8].length ≤ 4 ∧
    [0x00#8, 0x00#8, 0x00#8, 0x00#8] ≠ [0x00#8, 0x00#8, 0x00#8, 0x01#8] := by decide

theorem witness_OnlyUpdateIsNotIdempotent : Input.ofReset.reset = true ∧ Input.nothing.does .idle = true ∧
    (Input.ofWord 0x1FF#10).does .init = true ∧ State.reset.crc = some 0xFFFFFFFF#32 := by decide

theorem witness_PortsAgreeWithTheBlock : State.reset.crc = some 0xFFFFFFFF#32 ∧
    ({ rst := false, cmdValid := false, cmd := 0x300#10 } : Pins).cmdValid = false := ⟨rfl, rfl⟩

theorem witness_InstancesShareNothing :
    applyAt (1 : Fin 2) (.ofInstr .read) #v[State.powerUp, State.reset]
      = .next #v[State.powerUp, { State.reset with responses := [0x00000000#32] }] := rfl

theorem witness_PseudoInstructionsExpand :
    byteOperands [.word ['0', 'x', '3', '1'], .word ['5', '0'], .quoted '3'] = .ok [0x31#8, 0x32#8, 0x33#8] ∧
    (∀ cs, [Token.word ['0', 'x', '3', '1'], .word ['5', '0'], .quoted '3'] ≠ [.text cs]) ∧
    byteOperands [] = .ok [] ∧ (∀ cs, ([] : List Token) ≠ [.text cs]) ∧
    ∀ c ∈ [' ', '~'], 32 ≤ c.toNat ∧ c.toNat ≤ 126 := by
  refine ⟨by rfl, ?_, by rfl, ?_, ?_⟩ <;> simp

theorem witness_ChunkChecksum : ([0x00#8] : List Byte).length < 2 ^ 32 := by norm_num

theorem witness_VerificationComparesTheResponse :
    verifyChunk #v[0x49#8, 0x45#8, 0x4E#8, 0x44#8] [] 0xAE426082#32
      = .ok ⟨#v[0x49#8, 0x45#8, 0x4E#8, 0x44#8], [], 0xAE426082#32⟩ ∧
    verifyChunk #v[0x49#8, 0x45#8, 0x4E#8, 0x44#8] [] 0xAE426083#32 = .error .checksumMismatch := by decide +kernel

end Sys2Proof.Tests
end

section
/-! ## Runs of inputs: who reads and who writes `crc` (10_state.md R11, R17, R18) -/

namespace Sys2Proof.Machine

/-- Settles O5: both the reset event and INIT write all-ones to `crc` and leave the host's side. -/
theorem resetLeavesTheStateOfInit : Obligations.ResetLeavesTheStateOfInit := by
  unfold Obligations.ResetLeavesTheStateOfInit
  refine ⟨rfl, rfl, fun s => ?_, fun s => ?_⟩
  · rw [applyInput_reset ofReset_reset, reset_crc]; rfl
  · rw [applyInput_reset ofReset_reset, execInit_eq]; rfl

/-- A run that goes on has gone on at its first input. -/
theorem runInputs_cons_next {i : Input} {rest : List Input} {s s' : State} (h : runInputs (i :: rest) s = .next s') :
    ∃ t, applyInput i s = .next t ∧ runInputs rest t = .next s' := by
  rcases applyInput_stops (i := i) (s := s) with ⟨t, e⟩ | ⟨e, _⟩
  · exact ⟨t, e, by rwa [runInputs_cons e] at h⟩
  · rw [runInputs_cons_fault e] at h; cases h

/-- Whether a run stops, the `crc` it ends with and the responses it adds depend on the `crc` it starts with alone. -/
theorem runInputs_host_side (inputs : List Input) {s t : State} (h : s.crc = t.crc) :
    (∃ (crc : Option Word) (new : List Word),
      runInputs inputs s = .next { s with crc := crc, responses := s.responses ++ new } ∧
      runInputs inputs t = .next { t with crc := crc, responses := t.responses ++ new }) ∨
    (runInputs inputs s = .fault .crcHasNoValue ∧ runInputs inputs t = .fault .crcHasNoValue) := by
  induction inputs generalizing s t with
  | nil => exact .inl ⟨s.crc, [], by simp, by simp [h]⟩
  | cons i rest ih =>
    have ht : t = { crc := s.crc, input := t.input, responses := t.responses } := by rw [h]
    rcases applyInput_host_side i s t.input t.responses with ⟨crc, new, es, et⟩ | ⟨es, et⟩ <;> rw [← ht] at et
    · rw [runInputs_cons es, runInputs_cons et]
      rcases ih (s := { s with crc := crc, responses := s.responses ++ new })
        (t := { t with crc := crc, responses := t.responses ++ new }) rfl with ⟨crc', new', es', et'⟩ | stops
      · exact .inl ⟨crc', new ++ new', by simpa using es', by simpa using et'⟩
      · exact .inr stops
    · exact .inr ⟨runInputs_cons_fault es rest, runInputs_cons_fault et rest⟩

/-- INIT and the UPDATEs of m leave the running value of m, whatever `crc` held (43_message_function.md R57). -/
theorem runInputs_init_updates (m : List Byte) (s : State) :
    runInputs (Input.ofInstr .init :: updateInputs m) s
      = .next { s with crc := some (runBytes Config.initialValue m) } := by
  rw [runInputs_cons (by rw [applyInput_ofInstr, execInit_eq]), runInputs_updates_crc m (writeCrc_crc _ _)]
  rfl

/-- The non-empty message of R17 ends in the state of the empty one. -/
theorem runBytes_collision_with_empty :
    runBytes Config.initialValue [0x9D#8, 0x0A#8, 0xD9#8, 0x6D#8] = 0xFFFFFFFF#32 := by decide +kernel

/-- Settles O19, by induction on the inputs: one input acts on the host's side by appending only. -/
theorem noHiddenState : Obligations.NoHiddenState := by
  unfold Obligations.NoHiddenState
  refine ⟨fun inputs s t h => runInputs_host_side inputs h, fun s => ?_⟩
  rw [← runBytes_collision_with_empty]
  exact runInputs_init_updates [0x9D#8, 0x0A#8, 0xD9#8, 0x6D#8] s

theorem messageStep_reset {i : Input} (h : i.reset = true) (m : List Byte) : messageStep m i = [] := by
  simp [messageStep, h]

theorem messageStep_command {i : Input} (h : i.reset = false) (m : List Byte) :
    messageStep m i = messageAfter i.presented m := by simp [messageStep, h]

/-- `crc` holds no value, or the running value of the message m: what a block can know of m before and after its first
reset. -/
def HoldsAtMost (s : State) (m : List Byte) : Prop := ∀ c, s.crc = some c → c = runBytes Config.initialValue m

theorem holdsAtMost_of_none {s : State} (h : s.crc = none) (m : List Byte) : HoldsAtMost s m := by
  intro c hc
  rw [h] at hc; cases hc

theorem HoldsAtMost.after_input {i : Input} {s s' : State} {m : List Byte} (hs : HoldsAtMost s m)
    (h : applyInput i s = .next s') : HoldsAtMost s' (messageStep m i) := by
  intro c' hc'
  rcases applyInput_next h with ⟨hr, rfl⟩ | ⟨hr, hp, rfl⟩ | ⟨hr, hp, rfl⟩ | ⟨hr, d, c, hp, hc, rfl⟩ | ⟨hr, hp, c, _, rfl⟩
  · rw [messageStep_reset hr]
    cases hc'; rfl
  · rw [messageStep_command hr, hp]
    exact hs c' hc'
  · rw [messageStep_command hr, hp]
    cases hc'; rfl
  · rw [messageStep_command hr, hp, messageAfter, runBytes_concat, ← hs c hc]
    cases hc'; rfl
  · rw [messageStep_command hr, hp]
    exact hs c' hc'

theorem HoldsAtMost.after_run {inputs : List Input} {s s' : State} {m : List Byte} (hs : HoldsAtMost s m)
    (h : runInputs inputs s = .next s') : HoldsAtMost s' (inputs.foldl messageStep m) := by
  induction inputs generalizing s m with
  | nil => cases h; exact hs
  | cons i rest ih =>
    obtain ⟨t, hi, hrest⟩ := runInputs_cons_next h
    exact ih (hs.after_input hi) hrest

/-- `crc` after any step that goes on (10_state.md R11). -/
theorem step_crc {s s' : State} (h : step s = .next s') :
    s'.crc = if (nextInput s).reset then some 0xFFFFFFFF#32 else
      match (nextInput s).presented with
      | .idle => s.crc
      | .init => some 0xFFFFFFFF#32
      | .update d => s.crc.map fun c => crcStep c d
      | .read => s.crc := by
  rcases applyInput_next h with ⟨hr, rfl⟩ | ⟨hr, hp, rfl⟩ | ⟨hr, hp, rfl⟩ | ⟨hr, d, c, hp, hc, rfl⟩ | ⟨hr, hp, c, _, rfl⟩
  · rw [hr]; rfl
  · rw [hr, hp]; rfl
  · rw [hr, hp]; rfl
  · rw [consumeInput_crc] at hc
    rw [hr, hp, hc]; rfl
  · rw [hr, hp]; rfl

/-- A step adds no response, or is a READ and adds the finalised value of `crc` (42_result.md R56). -/
theorem step_responses {s s' : State} (h : step s = .next s') :
    s'.responses = s.responses ∨
      ((nextInput s).does .read = true ∧ ∃ c, s.crc = some c ∧ s'.responses = s.responses ++ [finalise c]) := by
  rcases applyInput_next h with ⟨_, rfl⟩ | ⟨_, _, rfl⟩ | ⟨_, _, rfl⟩ | ⟨_, d, c, _, _, rfl⟩ | ⟨hr, hp, c, hc, rfl⟩
  · exact .inl rfl
  · exact .inl rfl
  · exact .inl rfl
  · exact .inl rfl
  · exact .inr ⟨does_iff.mpr ⟨hr, hp⟩, c, hc, rfl⟩

/-- The final XOR undoes itself (42_result.md R56). -/
@[simp] theorem finalise_xor_finalXor (c : Word) : finalise c ^^^ Config.finalXor = c := by
  simp [finalise]

/-- Settles O17: the frame of a step, the response of a READ, and `HoldsAtMost` kept by every input. -/
theorem accessToCrcIsComplete : Obligations.AccessToCrcIsComplete := by
  unfold Obligations.AccessToCrcIsComplete
  refine ⟨fun s s' h => step_crc h, fun s other => ⟨rfl, rfl, rfl⟩, fun s s' h v hv => ?_,
    fun inputs s s' c hs h => (holdsAtMost_of_none hs []).after_run h c⟩
  rcases step_responses h with e | ⟨hread, c, hc, e⟩
  · simp [e] at hv
  · have hcv : finalise c = v := by simpa [e] using hv
    exact ⟨hread, by rw [← hcv, hc]; exact congrArg some (finalise_xor_finalXor c).symm⟩

end Sys2Proof.Machine
end

section
/-! ## Four bytes reach every value once (10_state.md R19)

Four bytes absorbed one by one are one word absorbed in 32 bit-steps; the bit-step is a bijection, and so is putting
four bytes together to a word. -/

namespace Sys2Proof.Machine

/-! ### Four bytes and their word (20_memory.md R25) -/

/-- A byte placed k bits up, bit by bit. -/
theorem getLsbD_placed (d : Byte) (k i : Nat) :
    (zext32 d <<< k).getLsbD i = (decide (i < 32 ∧ k ≤ i ∧ i < k + 8) && d.getLsbD (i - k)) := by
  by_cases h : i < k + 8
  · simp [zext32, h]
    grind
  · have hd : d.getLsbD (i - k) = false := BitVec.getLsbD_of_ge d _ (by omega)
    simp [zext32, hd]

theorem getLsbD_byteOf (k : Nat) (v : Word) (i : Nat) :
    (byteOf k v).getLsbD i = (decide (i < 8) && v.getLsbD (8 * k + i)) := by
  simp [byteOf]

theorem getLsbD_wireValue (b0 b1 b2 b3 : Byte) (i : Nat) :
    (wireValue b0 b1 b2 b3).getLsbD i =
      if i < 8 then b3.getLsbD i else if i < 16 then b2.getLsbD (i - 8)
      else if i < 24 then b1.getLsbD (i - 16) else b0.getLsbD (i - 24) := by
  have h := getLsbD_placed b3 0 i
  rw [BitVec.shiftLeft_zero] at h
  simp only [wireValue, BitVec.getLsbD_or, getLsbD_placed, h]
  grind

@[simp] theorem byteOf_wireValue (b0 b1 b2 b3 : Byte) :
    byteOf 3 (wireValue b0 b1 b2 b3) = b0 ∧ byteOf 2 (wireValue b0 b1 b2 b3) = b1 ∧
    byteOf 1 (wireValue b0 b1 b2 b3) = b2 ∧ byteOf 0 (wireValue b0 b1 b2 b3) = b3 := by
  refine ⟨?_, ?_, ?_, ?_⟩ <;>
  · apply BitVec.eq_of_getLsbD_eq
    intro i hi
    rw [getLsbD_byteOf, getLsbD_wireValue]
    grind

@[simp] theorem wireValue_byteOf (v : Word) :
    wireValue (byteOf 3 v) (byteOf 2 v) (byteOf 1 v) (byteOf 0 v) = v := by
  apply BitVec.eq_of_getLsbD_eq
  intro i hi
  simp only [getLsbD_wireValue, getLsbD_byteOf]
  grind

theorem wireValue_inj {a0 a1 a2 a3 b0 b1 b2 b3 : Byte} :
    wireValue a0 a1 a2 a3 = wireValue b0 b1 b2 b3 ↔ a0 = b0 ∧ a1 = b1 ∧ a2 = b2 ∧ a3 = b3 := by
  constructor
  · intro h
    exact ⟨by simpa using congrArg (byteOf 3) h, by simpa using congrArg (byteOf 2) h,
      by simpa using congrArg (byteOf 1) h, by simpa using congrArg (byteOf 0) h⟩
  · rintro ⟨rfl, rfl, rfl, rfl⟩; rfl

/-- The four bytes do not overlap, so the word is their XOR too. -/
theorem wireValue_eq_xor (b0 b1 b2 b3 : Byte) :
    wireValue b0 b1 b2 b3 = zext32 b3 <<< 0 ^^^ zext32 b2 <<< 8 ^^^ zext32 b1 <<< 16 ^^^ zext32 b0 <<< 24 := by
  apply BitVec.eq_of_getLsbD_eq
  intro i hi
  simp only [getLsbD_wireValue, BitVec.getLsbD_xor, getLsbD_placed]
  grind

/-! ### Four bytes absorbed -/

/-- A byte that enters after k bit-steps could as well have been placed k bits up before them (41_update.md R50). -/
theorem crcStep_bitSteps (v : Word) (d : Byte) {k : Nat} (hk : k ≤ 24) :
    crcStep (bitStep^[k] v) d = bitStep^[8 + k] (v ^^^ zext32 d <<< k) := by
  rw [crcStep, Function.iterate_add_apply, bitSteps_xor k, bitSteps_placed d hk]

/-- Four bytes absorbed are 32 bit-steps of their word, the first byte lowest, beside the register. -/
theorem runBytes_four (c : Word) (b0 b1 b2 b3 : Byte) :
    runBytes c [b0, b1, b2, b3] = bitStep^[32] (c ^^^ wireValue b3 b2 b1 b0) := by
  calc runBytes c [b0, b1, b2, b3]
      = crcStep (crcStep (crcStep (crcStep (bitStep^[0] c) b0) b1) b2) b3 := rfl
    _ = bitStep^[32] (c ^^^ zext32 b0 <<< 0 ^^^ zext32 b1 <<< 8 ^^^ zext32 b2 <<< 16 ^^^ zext32 b3 <<< 24) := by
        rw [crcStep_bitSteps c b0 (by decide), crcStep_bitSteps (k := 8) _ b1 (by decide),
          crcStep_bitSteps (k := 16) _ b2 (by decide), crcStep_bitSteps (k := 24) _ b3 (by decide)]
    _ = bitStep^[32] (c ^^^ wireValue b3 b2 b1 b0) := by simp only [wireValue_eq_xor, BitVec.xor_assoc]

theorem bitStep_bijective : Function.Bijective bitStep := Finite.injective_iff_bijective.mp bitStep_injective

/-- From any value, four bytes lead to every value, each by one choice of them (10_state.md R19). -/
theorem runBytes_four_bijective (c : Word) :
    Function.Bijective fun b : Byte × Byte × Byte × Byte => runBytes c [b.1, b.2.1, b.2.2.1, b.2.2.2] := by
  constructor
  · rintro ⟨a0, a1, a2, a3⟩ ⟨b0, b1, b2, b3⟩ h
    simp only [runBytes_four] at h
    have hw : wireValue a3 a2 a1 a0 = wireValue b3 b2 b1 b0 :=
      (BitVec.xor_right_inj c).mp (bitStep_injective.iterate 32 h)
    obtain ⟨rfl, rfl, rfl, rfl⟩ := wireValue_inj.mp hw
    rfl
  · intro t
    obtain ⟨v, hv⟩ := bitStep_bijective.surjective.iterate 32 t
    refine ⟨(byteOf 0 (c ^^^ v), byteOf 1 (c ^^^ v), byteOf 2 (c ^^^ v), byteOf 3 (c ^^^ v)), ?_⟩
    have hc : c ^^^ (c ^^^ v) = v := by simp
    simp only [runBytes_four, wireValue_byteOf, hc, hv]

/-- Settles O23: a run of four UPDATEs is `runBytes` on four bytes, which is a bijection from them to the values. -/
theorem fourBytesReachEveryValueOnce : Obligations.FourBytesReachEveryValueOnce := by
  unfold Obligations.FourBytesReachEveryValueOnce
  constructor
  · intro c i input responses
    obtain ⟨s', h, _⟩ := applyInput_of_ready (i := Input.ofInstr i) (s := ⟨some c, input, responses⟩) rfl
    exact ⟨s', by rwa [applyInput_ofInstr] at h⟩
  · intro c t input responses
    have hrun (b : Byte × Byte × Byte × Byte) :
        runInputs ([.update b.1, .update b.2.1, .update b.2.2.1, .update b.2.2.2].map Input.ofInstr)
          ⟨some c, input, responses⟩ = .next ⟨some (runBytes c [b.1, b.2.1, b.2.2.1, b.2.2.2]), input, responses⟩ :=
      runInputs_updates_crc [b.1, b.2.1, b.2.2.1, b.2.2.2] rfl
    simp only [hrun, Host.Outcome.next.injEq, State.mk.injEq, Option.some.injEq, and_true]
    exact (runBytes_four_bijective c).existsUnique t

end Sys2Proof.Machine
end

section
/-! ## The bytes of a checksum in stream order (20_memory.md R25)

A word is the number its four bytes write in base 256, so the rule's sum for the wire value follows from what the bytes
of a wire value are. -/

namespace Sys2Proof.Machine

theorem byteOf_toNat (k : Nat) (v : Word) : (byteOf k v).toNat = v.toNat / 2 ^ (8 * k) % 2 ^ 8 := by
  rw [byteOf, BitVec.extractLsb'_toNat, Nat.shiftRight_eq_div_pow]

/-- A word's value is the sum of its four bytes, each at its weight. -/
theorem toNat_eq_bytes (v : Word) :
    v.toNat = (byteOf 3 v).toNat * 2 ^ 24 + (byteOf 2 v).toNat * 2 ^ 16 + (byteOf 1 v).toNat * 2 ^ 8
      + (byteOf 0 v).toNat := by
  have hv : v.toNat < 2 ^ 32 := v.isLt
  simp only [byteOf_toNat]
  omega

theorem wireValue_toNat (b0 b1 b2 b3 : Byte) :
    (wireValue b0 b1 b2 b3).toNat = b0.toNat * 2 ^ 24 + b1.toNat * 2 ^ 16 + b2.toNat * 2 ^ 8 + b3.toNat := by
  simpa only [byteOf_wireValue] using toNat_eq_bytes (wireValue b0 b1 b2 b3)

/-- The message 123456789 gives the check value (43_message_function.md R59). -/
theorem crc32_checkMessage :
    crc32 [0x31#8, 0x32#8, 0x33#8, 0x34#8, 0x35#8, 0x36#8, 0x37#8, 0x38#8, 0x39#8] = Config.checkValue := by
  decide +kernel

/-- Settles O48: the sum is `wireValue_toNat`, the round trip `wireValue_byteOf`, and the bytes of 123456789 are those
of the check value. -/
theorem checksumBytesAreBigEndian : Obligations.ChecksumBytesAreBigEndian := by
  unfold Obligations.ChecksumBytesAreBigEndian
  refine ⟨fun _ => rfl, wireValue_toNat, wireValue_byteOf, ?_⟩
  rw [crc32_checkMessage]
  decide

end Sys2Proof.Machine
end

section
/-! ## The fields of a command word and the rows of the opcode map (30_encoding.md R33 to R36) -/

namespace Sys2Proof

/-- Only UPDATE has an operand, and it is the data field (30_encoding.md R34). -/
theorem operand_eq_dataField {w : CmdWord} {d : Byte} (h : decode w = .update d) : d = dataField w := by
  obtain ⟨data, rfl | rfl | rfl | rfl⟩ := commandWord_cases w
  case inr.inr.inl =>
    rw [decode_commandWord_update, Instr.update.injEq] at h
    rw [dataField_commandWord, h]
  all_goals simp at h

/-- The mask 0x300 keeps the opcode and clears the data field (30_encoding.md R35). -/
@[simp] theorem commandWord_and_mask (op : BitVec 2) (data : Byte) :
    commandWord op data &&& 0x300#10 = op ++ 0#8 := by
  calc commandWord op data &&& 0x300#10
      = (op ++ data) &&& (BitVec.allOnes 2 ++ 0#8) := rfl
    _ = (op &&& BitVec.allOnes 2) ++ (data &&& 0#8) := BitVec.and_append
    _ = op ++ 0#8 := by rw [BitVec.and_allOnes, BitVec.and_zero]

/-- The row of the opcode map that a word matches is the command it decodes to (30_encoding.md R35). -/
theorem decode_iff_match (w : CmdWord) :
    (decode w = .idle ↔ w &&& 0x300#10 = 0x000#10) ∧
    (decode w = .init ↔ w &&& 0x300#10 = 0x100#10) ∧
    ((∃ d, decode w = .update d) ↔ w &&& 0x300#10 = 0x200#10) ∧
    (decode w = .read ↔ w &&& 0x300#10 = 0x300#10) := by
  obtain ⟨data, rfl | rfl | rfl | rfl⟩ := commandWord_cases w <;> simp

/-- Every word matches one of the four rows (30_encoding.md R35). -/
theorem masked_mem_rows (w : CmdWord) : w &&& 0x300#10 ∈ [0x000#10, 0x100#10, 0x200#10, 0x300#10] := by
  obtain ⟨data, rfl | rfl | rfl | rfl⟩ := commandWord_cases w <;> simp

/-- A number decodes exactly when it is a command word (30_encoding.md R36). -/
theorem decodeNat_ok_iff (n : Nat) : (∃ i, decodeNat n = .ok i) ↔ isCommandWord n = true := by
  unfold decodeNat
  split <;> simp [*]

/-- Settles O9: the word and its fields are the same bits. -/
theorem commandWordFields : Obligations.CommandWordFields := by
  unfold Obligations.CommandWordFields
  refine ⟨commandWord_toNat, commandWord_fields, fun w i hi => ?_, fun w i hi => ?_, fun _ _ => operand_eq_dataField,
    fun d => ?_⟩
  · simp [dataField, hi]
  · simp [opField, hi]
  · exact BitVec.toNat_setWidth_of_le (by decide)

/-- Settles O10: a word is its opcode and its data, the mask keeps the opcode, and the decoder reads the data of UPDATE
alone. -/
theorem opcodesPartitionTheWords : Obligations.OpcodesPartitionTheWords := by
  unfold Obligations.OpcodesPartitionTheWords
  refine ⟨decode_iff_match, fun w => ?_, fun data => ⟨?_, ?_, ?_⟩, ⟨rfl, rfl, rfl, fun d => ?_⟩, fun n => ?_⟩
  · exact ⟨w &&& 0x300#10, ⟨masked_mem_rows w, rfl⟩, fun p ⟨_, hp⟩ => hp.symm⟩
  · exact decode_commandWord_idle data
  · exact decode_commandWord_init data
  · exact decode_commandWord_read data
  · exact commandWord_toNat 0b10#2 d
  · rw [decodeNat_ok_iff, isCommandWord, decide_eq_true_iff]
    omega

end Sys2Proof
end

section
/-! ## IDLE and INIT (40_control.md R40, R41)

IDLE leaves the state to the input after it, so a run does not see the IDLEs in it. INIT writes without reading, so
what comes after it starts from all-ones in every state. -/

namespace Sys2Proof.Machine

/-- An IDLE that takes effect changes nothing (40_control.md R40). -/
theorem applyInput_of_does_idle {i : Input} (h : i.does .idle = true) (s : State) : applyInput i s = .next s := by
  obtain ⟨hreset, hidle⟩ := does_iff.mp h
  rw [applyInput_command hreset, hidle, execIdle_eq]

@[simp] theorem withoutIdles_nil : withoutIdles [] = [] := rfl

theorem withoutIdles_cons_idle {i : Input} (h : i.does .idle = true) (rest : List Input) :
    withoutIdles (i :: rest) = withoutIdles rest := by simp [withoutIdles, h]

theorem withoutIdles_cons_other {i : Input} (h : i.does .idle = false) (rest : List Input) :
    withoutIdles (i :: rest) = i :: withoutIdles rest := by simp [withoutIdles, h]

/-- A run ends, or stops, as it does with its IDLEs removed (40_control.md R40). -/
theorem runInputs_withoutIdles (inputs : List Input) (s : State) :
    runInputs (withoutIdles inputs) s = runInputs inputs s := by
  induction inputs generalizing s with
  | nil => rfl
  | cons i rest ih =>
    cases hidle : i.does .idle with
    | true => rw [withoutIdles_cons_idle hidle, runInputs_cons (applyInput_of_does_idle hidle s), ih]
    | false =>
      rw [withoutIdles_cons_other hidle]
      rcases applyInput_stops (i := i) (s := s) with ⟨t, e⟩ | ⟨e, _⟩
      · rw [runInputs_cons e, runInputs_cons e, ih]
      · rw [runInputs_cons_fault e, runInputs_cons_fault e]

/-- Pins without reset and with `cmd_valid = 0` present nothing, whatever `cmd` holds (70_reset_and_hazards.md R96). -/
theorem toInput_of_no_command (cmd : CmdWord) :
    ({ rst := false, cmdValid := false, cmd := cmd } : Pins).toInput = Input.nothing := rfl

/-- Presenting nothing is IDLE (40_control.md R40). -/
theorem nothing_does_idle : Input.nothing.does .idle = true := does_iff.mpr ⟨nothing_reset, nothing_presented⟩

/-- Settles O1: the words of IDLE are decoded by their opcode, and its removal is `runInputs_withoutIdles`. -/
theorem idleDoesNothing : Obligations.IdleDoesNothing := by
  unfold Obligations.IdleDoesNothing
  refine ⟨execIdle_eq, rfl, decode_commandWord_idle, fun cmd => ?_, runInputs_withoutIdles⟩
  rw [toInput_of_no_command, nothing_does_idle]

/-- What comes after INIT starts from all-ones, whatever `crc` held (40_control.md R41). -/
theorem runInputs_cons_init (rest : List Input) (s : State) :
    runInputs (Input.ofInstr .init :: rest) s = runInputs rest (writeCrc Config.initialValue s) :=
  runInputs_cons (by rw [applyInput_ofInstr, execInit_eq]) rest

/-- A READ of c gives the finalised value to the host and leaves `crc` (42_result.md R53). -/
theorem runInputs_cons_read {s : State} {c : Word} (h : s.crc = some c) (rest : List Input) :
    runInputs (Input.ofInstr .read :: rest) s = runInputs rest (respond (finalise c) s) :=
  runInputs_cons (by rw [applyInput_ofInstr, execRead_eq h]) rest

@[simp] theorem writeCrc_writeCrc (v w : Word) (s : State) : writeCrc v (writeCrc w s) = writeCrc v s := rfl

/-- The empty message responds 0 (42_result.md R55). -/
theorem finalise_initialValue : finalise Config.initialValue = 0x00000000#32 := by decide

/-- A command that shortens the message is INIT (40_control.md R41). -/
theorem eq_init_of_messageAfter_shorter {i : Instr} {m : List Byte} (h : (messageAfter i m).length < m.length) :
    i = .init := by
  cases i with
  | idle => exact absurd h (Nat.lt_irrefl m.length)
  | init => rfl
  | update d =>
    have hlen : (messageAfter (.update d) m).length = m.length + 1 := List.length_append
    omega
  | read => exact absurd h (Nat.lt_irrefl m.length)

/-- Settles O2: INIT is one write of all-ones, so a second one and what `crc` held before make no difference. -/
theorem initStartsANewMessage : Obligations.InitStartsANewMessage := by
  unfold Obligations.InitStartsANewMessage
  refine ⟨execInit_eq, rfl, decode_commandWord_init, rfl, fun s => ?_, fun s => ?_, fun _ => rfl,
    fun _ _ => eq_init_of_messageAfter_shorter⟩
  · simp only [runInputs_cons_init, writeCrc_writeCrc]
  · rw [runInputs_cons_init, runInputs_cons_read (writeCrc_crc _ s), finalise_initialValue]
    rfl

end Sys2Proof.Machine
end

section
/-! ## The register as its low byte and its upper bits (41_update.md R45, R48)

UPDATE's byte meets the low byte of the register alone, so the step is the table entry of their XOR, beside the upper
bits shifted down. -/

namespace Sys2Proof.Machine

/-! ### Bytes of a word -/

theorem byteOf_zero_eq_setWidth (v : Word) : byteOf 0 v = v.setWidth 8 := rfl

@[simp] theorem byteOf_xor (k : Nat) (a b : Word) : byteOf k (a ^^^ b) = byteOf k a ^^^ byteOf k b := by
  apply BitVec.eq_of_getLsbD_eq
  intro i hi
  simp only [getLsbD_byteOf, BitVec.getLsbD_xor, hi, decide_true, Bool.true_and]

@[simp] theorem byteOf_zero_zext32 (d : Byte) : byteOf 0 (zext32 d) = d := by
  simp [byteOf_zero_eq_setWidth, zext32]

@[simp] theorem zext32_ushiftRight (d : Byte) : zext32 d >>> 8 = 0#32 := by
  apply BitVec.eq_of_getLsbD_eq
  simp [zext32]

/-- A shift by 8 empties the top byte. -/
@[simp] theorem byteOf_three_ushiftRight (v : Word) : byteOf 3 (v >>> 8) = 0#8 := by
  apply BitVec.eq_of_getLsbD_eq
  intro i hi
  rw [getLsbD_byteOf, BitVec.getLsbD_ushiftRight, BitVec.getLsbD_of_ge v _ (by omega), Bool.and_false,
    BitVec.getLsbD_zero]

/-- Words with one low byte and the same upper bits are equal. -/
theorem eq_of_low_high {v w : Word} (hlow : byteOf 0 v = byteOf 0 w) (hhigh : v >>> 8 = w >>> 8) : v = w := by
  rw [low_xor_high v, low_xor_high w, hlow, hhigh]

/-- The byte of an UPDATE meets the low byte of the register, and only as their XOR (41_update.md R45). -/
theorem xor_zext32_congr {c c' : Word} {d d' : Byte} (hhigh : c >>> 8 = c' >>> 8)
    (hlow : byteOf 0 c ^^^ d = byteOf 0 c' ^^^ d') : c ^^^ zext32 d = c' ^^^ zext32 d' := by
  apply eq_of_low_high
  · simpa using hlow
  · simpa [BitVec.ushiftRight_xor_distrib] using hhigh

/-! ### The step -/

/-- The step in table form, with the low byte and the upper bits of the register written out (41_update.md R48). -/
theorem crcStep_eq_table (c : Word) (d : Byte) : crcStep c d = tableEntry (byteOf 0 c ^^^ d) ^^^ (c >>> 8) := by
  rw [crcStep, bitSteps_low_high]
  simp [tableEntry, crcStep, BitVec.ushiftRight_xor_distrib]

theorem tableStep_eq_crcStep (c : Word) (d : Byte) : tableStep c d = crcStep c d := by
  rw [crcStep_eq_table, tableStep, byteOf_xor, byteOf_zero_zext32]

/-- Settles O27: eight bit-steps move the upper bits down unchanged, and what is left is the step on the low byte. -/
theorem tableFormAgrees : Obligations.TableFormAgrees := by
  unfold Obligations.TableFormAgrees
  refine ⟨fun _ => rfl, tableStep_eq_crcStep, fun c d => ?_⟩
  exact (tableStep_eq_crcStep c d).symm

/-- The encoding of UPDATE d is 0x200 + d (41_update.md R45). -/
theorem encode_update (d : Byte) : encode (.update d) = BitVec.ofNat 10 (0x200 + d.toNat) := by
  have hd : d.toNat < 256 := d.isLt
  apply BitVec.eq_of_toNat_eq
  calc (commandWord 0b10#2 d).toNat
      = 0x200 + d.toNat := commandWord_toNat 0b10#2 d
    _ = (BitVec.ofNat 10 (0x200 + d.toNat)).toNat := by rw [BitVec.toNat_ofNat, Nat.mod_eq_of_lt (by omega)]

/-- Settles O3: the unrolled loop is `crcStep`, which reads register and byte through their XOR alone. -/
theorem updateAbsorbsOneByte : Obligations.UpdateAbsorbsOneByte := by
  unfold Obligations.UpdateAbsorbsOneByte
  intro iteration absorbed
  have habsorbed : absorbed = crcStep := rfl
  rw [habsorbed]
  refine ⟨fun s c d hc => execUpdate_eq hc d, fun d => ⟨encode_update d, decode_commandWord_update d⟩,
    by decide +kernel, by decide +kernel, by decide +kernel, by decide +kernel, by decide +kernel, by decide +kernel,
    by decide +kernel, fun c c' d d' hhigh hlow => ?_⟩
  rw [crcStep, crcStep, xor_zext32_congr hhigh hlow]

/-! ### The listed table (41_update.md R49) -/

/-- The listing is the step on `crc = 0`, byte by byte, evaluated. -/
theorem crcTable_eq : crcTable = (List.range 256).map fun n => tableEntry (BitVec.ofNat 8 n) := by decide +kernel

/-- Settles O28: the listing is the map of the step over the 256 bytes. -/
theorem listedTableIsTheStep : Obligations.ListedTableIsTheStep := by
  unfold Obligations.ListedTableIsTheStep
  refine ⟨?_, fun k => ?_, rfl, rfl, rfl⟩
  · rw [crcTable_eq, List.length_map, List.length_range]
  · simp [crcTable_eq, List.getElem?_range k.isLt, tableEntry]

end Sys2Proof.Machine
end

section
/-! ## The left-shifting form (41_update.md R46)

Bit-reversal carries the bit-step of one form to that of the other, so it carries eight of them, and any number of
bytes. -/

namespace Sys2Proof.Machine

@[simp] theorem bitrev32_bitrev32 (v : Word) : bitrev32 (bitrev32 v) = v := BitVec.reverse_reverse_eq

theorem getLsbD_bitrev32 (v : Word) {i : Nat} (hi : i < 32) : (bitrev32 v).getLsbD i = v.getLsbD (31 - i) := by
  rw [bitrev32, BitVec.getLsbD_reverse, BitVec.getMsbD_eq_getLsbD]
  simp [hi]

theorem bitrev32_xor (a b : Word) : bitrev32 (a ^^^ b) = bitrev32 a ^^^ bitrev32 b := by
  apply BitVec.eq_of_getLsbD_eq
  intro i hi
  simp only [BitVec.getLsbD_xor, getLsbD_bitrev32 _ hi]

/-- A byte at the bottom of `crc` is the reversed byte at the top of the reversed register (41_update.md R46). -/
theorem bitrev32_zext32 (d : Byte) : bitrev32 (zext32 d) = zext32 (bitrev8 d) <<< 24 := by
  apply BitVec.eq_of_getLsbD_eq
  intro i hi
  rw [getLsbD_bitrev32 _ hi, getLsbD_placed, bitrev8, BitVec.getLsbD_reverse, BitVec.getMsbD_eq_getLsbD, zext32,
    BitVec.getLsbD_setWidth]
  grind

/-- A step of the left-shifting form on the reversed register is the reversed step. -/
theorem leftStep_bitrev32 (c : Word) (d : Byte) : leftStep (bitrev32 c) d = bitrev32 (crcStep c d) := by
  have hbits : Function.Semiconj bitrev32 bitStep^[8] leftBit^[8] :=
    Function.Semiconj.iterate_right (fun c => (leftBit_bitrev32 c).symm) 8
  rw [leftStep, crcStep, ← bitrev32_zext32, ← bitrev32_xor, hbits.eq]

theorem foldl_leftStep_bitrev32 (m : List Byte) (c : Word) :
    m.foldl leftStep (bitrev32 c) = bitrev32 (runBytes c m) :=
  List.foldl_hom bitrev32 leftStep_bitrev32

/-- READ answers the same number from either register. -/
theorem leftFinalise_bitrev32 (c : Word) : leftFinalise (bitrev32 c) = finalise c := by
  rw [leftFinalise, bitrev32_bitrev32, finalise]

theorem bitrev32_allOnes : bitrev32 0xFFFFFFFF#32 = 0xFFFFFFFF#32 := by decide +kernel

/-- Settles O25: the two forms are bit reversals of each other at every step, and all-ones is its own reversal. -/
theorem leftShiftingFormAgrees : Obligations.LeftShiftingFormAgrees := by
  unfold Obligations.LeftShiftingFormAgrees
  refine ⟨fun c d => ?_, leftFinalise_bitrev32, bitrev32_allOnes, foldl_leftStep_bitrev32, fun m => ?_⟩
  · rw [leftStep_bitrev32, bitrev32_bitrev32]
  · rw [← bitrev32_allOnes, foldl_leftStep_bitrev32, leftFinalise_bitrev32]
    rfl

end Sys2Proof.Machine
end

section
/-! ## The bit-serial form (41_update.md R47)

A message bit that enters after n bit-steps could as well have been placed n bits up before them; so n iterations are n
bit-steps of the register with the n low bits of the byte already in. -/

namespace Sys2Proof.Machine

/-- A message bit as a byte. -/
def bitByte (b : Bool) : Byte := (BitVec.ofBool b).setWidth 8

theorem getLsbD_bitByte (b : Bool) (i : Nat) : (bitByte b).getLsbD i = (decide (i = 0) && b) := by
  cases b <;> simp [bitByte]

/-- The n low bits of a byte. -/
def lowBits (n : Nat) (d : Byte) : Byte := (d.setWidth n).setWidth 8

@[simp] theorem lowBits_zero (d : Byte) : lowBits 0 d = 0#8 := by
  rw [lowBits, BitVec.of_length_zero (x := d.setWidth 0)]
  decide

@[simp] theorem lowBits_eight (d : Byte) : lowBits 8 d = d := by simp [lowBits]

theorem zext32_lowBits_succ (n : Nat) (d : Byte) :
    zext32 (lowBits (n + 1) d) = zext32 (lowBits n d) ^^^ zext32 (bitByte (d.getLsbD n)) <<< n := by
  apply BitVec.eq_of_getLsbD_eq
  intro i hi
  rw [BitVec.getLsbD_xor, getLsbD_placed, getLsbD_bitByte]
  simp only [zext32, lowBits, BitVec.getLsbD_setWidth]
  grind

/-- A bit-serial iteration is a bit-step with the message bit already in. -/
theorem serialBit_eq (c : Word) (b : Bool) : serialBit c b = bitStep (c ^^^ zext32 (bitByte b)) := by
  have hshift : zext32 (bitByte b) >>> 1 = 0#32 := by cases b <;> decide
  have hbit : (zext32 (bitByte b)).getLsbD 0 = b := by cases b <;> decide
  rw [serialBit, bitStep, BitVec.getLsbD_xor, hbit, BitVec.ushiftRight_xor_distrib, hshift, BitVec.xor_zero]

/-- The register after n iterations of the bit-serial form. -/
theorem foldl_serialBit (c : Word) (d : Byte) {n : Nat} (hn : n ≤ 8) :
    (List.range n).foldl (fun c i => serialBit c (d.getLsbD i)) c = bitStep^[n] (c ^^^ zext32 (lowBits n d)) := by
  induction n with
  | zero => simp [zext32]
  | succ n ih =>
    rw [List.range_succ, List.foldl_append, ih (by omega), List.foldl_cons, List.foldl_nil, serialBit_eq,
      zext32_lowBits_succ, Function.iterate_succ_apply', ← BitVec.xor_assoc, bitSteps_xor n (c ^^^ _),
      bitSteps_placed _ (by omega)]

theorem serialStep_eq_crcStep (c : Word) (d : Byte) : serialStep c d = crcStep c d := by
  rw [serialStep, foldl_serialBit c d le_rfl, lowBits_eight, crcStep]

/-- The feedback taps (41_update.md R47). -/
theorem getLsbD_polyReflected_iff (i : Nat) :
    Config.polyReflected.getLsbD i = true ↔ i ∈ [31, 30, 29, 27, 26, 24, 23, 21, 20, 19, 15, 9, 8, 5] := by
  by_cases hi : i < 32
  · have h : ∀ i < 32, Config.polyReflected.getLsbD i = true ↔
        i ∈ [31, 30, 29, 27, 26, 24, 23, 21, 20, 19, 15, 9, 8, 5] := by decide +kernel
    exact h i hi
  · rw [BitVec.getLsbD_of_ge _ i (by omega)]
    simp
    omega

/-- Settles O26: eight bit-serial iterations are eight bit-steps with the whole byte in. -/
theorem bitSerialFormAgrees : Obligations.BitSerialFormAgrees := by
  unfold Obligations.BitSerialFormAgrees
  exact ⟨serialStep_eq_crcStep, getLsbD_polyReflected_iff⟩

end Sys2Proof.Machine
end

section
/-! ## The step can be undone (41_update.md R52)

The top byte of a stepped register is the top byte of the table entry used, and the top bytes of the table are
pairwise different; so the entry used, and with it the register before, can be read off the register after. -/

namespace Sys2Proof.Machine

/-- The listing finds every byte again by the top byte of its entry, evaluated (41_update.md R52). -/
theorem topIndex_byteOf_tableEntry : ∀ k : Byte, topIndex (byteOf 3 (tableEntry k)) = k := by decide +kernel

/-- The top bytes of the table are pairwise different. -/
theorem byteOf_three_tableEntry_injective : Function.Injective fun k : Byte => byteOf 3 (tableEntry k) :=
  Function.LeftInverse.injective topIndex_byteOf_tableEntry

/-- The top byte of a stepped register is that of the table entry used. -/
theorem byteOf_three_crcStep (c : Word) (d : Byte) :
    byteOf 3 (crcStep c d) = byteOf 3 (tableEntry (byteOf 0 c ^^^ d)) := by
  rw [crcStep_eq_table, byteOf_xor, byteOf_three_ushiftRight, BitVec.xor_zero]

/-- The table entry used leaves the upper bits of the register before, shifted down. -/
theorem crcStep_xor_tableEntry (c : Word) (d : Byte) :
    crcStep c d ^^^ tableEntry (byteOf 0 c ^^^ d) = c >>> 8 := by
  rw [crcStep_eq_table, BitVec.xor_comm, ← BitVec.xor_assoc, BitVec.xor_self, BitVec.zero_xor]

theorem ushiftRight_and_low24 (c : Word) : c >>> 8 &&& 0x00FFFFFF#32 = c >>> 8 := by
  have hc : (c >>> 8).toNat < 2 ^ 24 := by
    rw [BitVec.toNat_ushiftRight, Nat.shiftRight_eq_div_pow]
    exact Nat.div_lt_of_lt_mul c.isLt
  exact BitVec.eq_of_toNat_eq (Nat.and_two_pow_sub_one_of_lt_two_pow hc)

theorem ushiftRight_shiftLeft_or_low (c : Word) : (c >>> 8) <<< 8 ||| zext32 (byteOf 0 c) = c := by
  apply BitVec.eq_of_getLsbD_eq
  intro i hi
  simp [zext32, getLsbD_byteOf, hi]
  grind

theorem undoStep_crcStep (c : Word) (d : Byte) : undoStep (crcStep c d) d = c := by
  have hk : topIndex (byteOf 3 (crcStep c d)) = byteOf 0 c ^^^ d := by
    rw [byteOf_three_crcStep, topIndex_byteOf_tableEntry]
  rw [undoStep, hk, crcStep_xor_tableEntry, BitVec.xor_assoc, BitVec.xor_self, BitVec.xor_zero,
    ushiftRight_shiftLeft_or_low]

theorem crcStep_bijective (d : Byte) : Function.Bijective fun c : Word => crcStep c d :=
  Finite.injective_iff_bijective.mp (crcStep_injective d)

/-- Every value is the result of a step, so undoing first and stepping then is the identity too. -/
theorem crcStep_undoStep (c : Word) (d : Byte) : crcStep (undoStep c d) d = c := by
  obtain ⟨b, rfl⟩ := (crcStep_bijective d).surjective c
  simp only [undoStep_crcStep]

/-! ### Consequences for messages and states -/

theorem runBytes_append (c : Word) (p q : List Byte) : runBytes c (p ++ q) = runBytes (runBytes c p) q :=
  List.foldl_append

/-- A message never brings two registers together. -/
theorem runBytes_injective (m : List Byte) : Function.Injective fun c : Word => runBytes c m := by
  induction m with
  | nil => exact Function.injective_id
  | cons d m ih => exact ih.comp (crcStep_injective d)

/-- Messages that differ in one byte end differently, from every register. -/
theorem runBytes_ne_of_one_byte (p q : List Byte) {d e : Byte} (hne : d ≠ e) (c : Word) :
    runBytes c (p ++ d :: q) ≠ runBytes c (p ++ e :: q) := by
  rw [runBytes_append, runBytes_append, runBytes_cons, runBytes_cons]
  exact fun h => hne (crcStep_byte_injective _ (runBytes_injective q h))

/-- No register is left unchanged by every byte, as different bytes lead to different values. -/
theorem exists_crcStep_ne (c : Word) : ∃ d : Byte, crcStep c d ≠ c := by
  by_contra! hfix
  have h01 : (0x00#8 : Byte) = 0x01#8 := crcStep_byte_injective c ((hfix 0x00#8).trans (hfix 0x01#8).symm)
  exact absurd h01 (by decide)

/-! ### No command undoes an UPDATE -/

/-- A message acts on a register as bit-steps, beside what it makes of the register 0. -/
theorem runBytes_eq_bitSteps_xor (c : Word) (m : List Byte) :
    runBytes c m = bitStep^[8 * m.length] c ^^^ runBytes 0#32 m := by
  induction m generalizing c with
  | nil => simp
  | cons d m ih =>
    have hstep : crcStep c d = bitStep^[8] c ^^^ crcStep 0#32 d := by
      rw [crcStep, crcStep, BitVec.zero_xor, bitSteps_xor]
    rw [runBytes_cons, runBytes_cons, ih (crcStep c d), ih (crcStep 0#32 d), hstep, bitSteps_xor,
      ← Function.iterate_add_apply, List.length_cons, Nat.mul_succ, BitVec.xor_assoc]

/-- No message of one or two bytes leaves every register unchanged: it moves a bit of the third byte down. -/
theorem exists_runBytes_ne {m : List Byte} (hm : m.length = 1 ∨ m.length = 2) : ∃ c : Word, runBytes c m ≠ c := by
  by_contra! hfix
  have hbits : bitStep^[8 * m.length] 0x10000#32 = 0x10000#32 := by
    have h := runBytes_eq_bitSteps_xor 0x10000#32 m
    rwa [hfix, hfix, BitVec.xor_zero, eq_comm] at h
  rcases hm with hlen | hlen <;> rw [hlen] at hbits
  · exact absurd hbits (by decide +kernel)
  · exact absurd hbits (by decide +kernel)

/-- An UPDATE steps the register and leaves the host's side (41_update.md R45). -/
theorem runInputs_cons_update {s : State} {c : Word} (h : s.crc = some c) (d : Byte) (rest : List Input) :
    runInputs (Input.ofInstr (.update d) :: rest) s = runInputs rest (writeCrc (crcStep c d) s) :=
  runInputs_cons (by rw [applyInput_ofInstr, execUpdate_eq h]) rest

/-- No single command takes the block back to where it was before an UPDATE, from every register: IDLE and UPDATE end a
message of one or two bytes, INIT ends in all-ones, READ responds. -/
theorem no_command_undoes_update (d : Byte) (i : Instr) : ¬ ∀ c : Word,
    runInputs [Input.ofInstr (.update d), Input.ofInstr i] ⟨some c, [], []⟩ = .next ⟨some c, [], []⟩ := by
  intro hback
  have hafter (c : Word) : runInputs [Input.ofInstr i] (writeCrc (crcStep c d) ⟨some c, [], []⟩)
      = .next ⟨some c, [], []⟩ := by rw [← hback c, runInputs_cons_update rfl]
  cases i with
  | idle =>
    obtain ⟨c, hc⟩ := exists_runBytes_ne (m := [d]) (.inl rfl)
    have h := hafter c
    rw [runInputs_cons (applyInput_ofInstr .idle _)] at h
    exact hc (by simpa [writeCrc] using h)
  | init =>
    have h := hafter 0#32
    simp [runInputs_cons_init, writeCrc, Config.initialValue] at h
  | update e =>
    obtain ⟨c, hc⟩ := exists_runBytes_ne (m := [d, e]) (.inr rfl)
    have h := hafter c
    rw [runInputs_cons_update (writeCrc_crc _ _)] at h
    exact hc (by simpa [writeCrc] using h)
  | read =>
    have h := hafter 0#32
    rw [runInputs_cons_read (writeCrc_crc _ _)] at h
    simp [respond, writeCrc] at h

/-- Settles O29: the table entry used by a step is read off the top byte of its result. -/
theorem stepCanBeUndone : Obligations.StepCanBeUndone := by
  unfold Obligations.StepCanBeUndone
  refine ⟨crcStep_bijective, fun j k h => byteOf_three_tableEntry_injective h, fun c d k hk => ?_,
    fun c d => ⟨undoStep_crcStep c d, crcStep_undoStep c d⟩, fun p q d e c hne => runBytes_ne_of_one_byte p q hne c,
    exists_crcStep_ne, by decide +kernel, no_command_undoes_update⟩
  obtain rfl : k = byteOf 0 c ^^^ d := byteOf_three_tableEntry_injective (hk.trans (byteOf_three_crcStep c d))
  constructor
  · calc c >>> 8 = c >>> 8 &&& 0x00FFFFFF#32 := (ushiftRight_and_low24 c).symm
      _ = (crcStep c d ^^^ tableEntry (byteOf 0 c ^^^ d)) &&& 0x00FFFFFF#32 := by rw [crcStep_xor_tableEntry]
  · rw [BitVec.xor_assoc, BitVec.xor_self, BitVec.xor_zero, byteOf_zero_eq_setWidth]

end Sys2Proof.Machine
end

section
/-! ## READ (42_result.md R53 to R56)

READ answers the finalised value and leaves `crc`, so the inputs after it act as if it had not been there. -/

namespace Sys2Proof.Machine

/-! ### The final XOR -/

/-- Only all-ones finalises to zero (42_result.md R56). -/
theorem finalise_eq_zero_iff (c : Word) : finalise c = 0x00000000#32 ↔ c = Config.finalXor := BitVec.xor_eq_zero_iff

/-- No value is its own finalised value, as the final XOR is not zero (42_result.md R56). -/
theorem finalise_ne_self (c : Word) : finalise c ≠ c := by
  intro h
  have hzero : Config.finalXor = 0#32 := (BitVec.xor_right_inj c).mp (h.trans BitVec.xor_zero.symm)
  exact absurd hzero (by decide)

/-- Settles O18: the responses are those of `step_responses`, and the message is one that ends in all-ones. -/
theorem rawRegisterIsNotReadable : Obligations.RawRegisterIsNotReadable := by
  unfold Obligations.RawRegisterIsNotReadable
  refine ⟨fun s s' h => step_responses h, fun c => ⟨finalise_ne_self c, finalise_xor_finalXor c⟩,
    finalise_eq_zero_iff, ?_⟩
  rw [crc32, runBytes_collision_with_empty]
  exact finalise_initialValue

/-! ### Runs with READs in them -/

/-- A READ after a run responds the finalised value of the `crc` the run ends with, and keeps it (42_result.md R53). -/
theorem runInputs_concat_read {inputs : List Input} {s s' : State} {c : Word} (h : runInputs inputs s = .next s')
    (hc : s'.crc = some c) : runInputs (inputs ++ [Input.ofInstr .read]) s = .next (respond (finalise c) s') := by
  rw [runInputs_append h, runInputs_cons_read hc, runInputs_nil]

/-- Consecutive READs all respond the same value (42_result.md R54). -/
theorem runInputs_reads (n : Nat) {s : State} {c : Word} (hc : s.crc = some c) :
    runInputs (List.replicate n (Input.ofInstr .read)) s
      = .next { s with responses := s.responses ++ List.replicate n (finalise c) } := by
  induction n generalizing s with
  | zero => simp
  | succ n ih =>
    rw [List.replicate_succ, runInputs_cons_read hc, ih (s := respond (finalise c) s) hc]
    simp [respond, List.replicate_succ]

/-- INIT, the UPDATEs of m, READ: the register ends with the running value of m and the response is `CRC32(m)`
(43_message_function.md R57). -/
theorem runInputs_message_read (m : List Byte) (s : State) :
    runInputs (Input.ofInstr .init :: updateInputs m ++ [Input.ofInstr .read]) s
      = .next { s with
          crc := some (runBytes Config.initialValue m)
          responses := s.responses ++ [crc32 m] } :=
  runInputs_concat_read (runInputs_init_updates m s) rfl

/-- The UPDATEs after a READ continue the message before it (42_result.md R54). -/
theorem runInputs_message_continued_after_read (s : State) (a b : List Byte) :
    runInputs (Input.ofInstr .init :: updateInputs a ++ [Input.ofInstr .read] ++ updateInputs b
        ++ [Input.ofInstr .read]) s
      = .next { s with
          crc := some (runBytes Config.initialValue (a ++ b))
          responses := s.responses ++ [crc32 a, crc32 (a ++ b)] } := by
  have hb : runInputs (Input.ofInstr .init :: updateInputs a ++ [Input.ofInstr .read] ++ updateInputs b) s
      = .next { s with
          crc := some (runBytes Config.initialValue (a ++ b))
          responses := s.responses ++ [crc32 a] } := by
    rw [runInputs_append (runInputs_message_read a s), runInputs_updates_crc b rfl, ← runBytes_append]
  rw [runInputs_concat_read hb rfl]
  simp [respond, crc32]

/-- Settles O35: READs leave the register, so the values are those of the messages `a` and `a ++ b`. -/
theorem readDoesNotEndTheMessage : Obligations.ReadDoesNotEndTheMessage := by
  unfold Obligations.ReadDoesNotEndTheMessage
  exact ⟨fun s c n hc => runInputs_reads n hc, runInputs_message_continued_after_read,
    ⟨by decide +kernel, by decide +kernel⟩, ⟨by decide +kernel, by decide +kernel⟩⟩

/-- The register after the message 123456789 (42_result.md R53). -/
theorem runBytes_checkMessage :
    runBytes Config.initialValue [0x31#8, 0x32#8, 0x33#8, 0x34#8, 0x35#8, 0x36#8, 0x37#8, 0x38#8, 0x39#8]
      = 0x340BC6D9#32 := by decide +kernel

/-- Settles O4: the example is the message 123456789 with its READ. -/
theorem readRespondsTheFinalisedValue : Obligations.ReadRespondsTheFinalisedValue := by
  unfold Obligations.ReadRespondsTheFinalisedValue
  refine ⟨fun s c hc => execRead_eq hc, rfl, decode_commandWord_read, fun s => ?_⟩
  have h := runInputs_message_read [0x31#8, 0x32#8, 0x33#8, 0x34#8, 0x35#8, 0x36#8, 0x37#8, 0x38#8, 0x39#8] s
  rw [runBytes_checkMessage, crc32_checkMessage] at h
  exact h

/-- INIT and reset start a message alike: `crc` becomes all-ones, whatever it held (70_reset_and_hazards.md R85). -/
theorem applyInput_of_starts_message {first : Input} (h : first = Input.ofInstr .init ∨ first.reset = true)
    (s : State) : applyInput first s = .next (writeCrc Config.initialValue s) := by
  rcases h with rfl | hreset
  · rw [applyInput_ofInstr, execInit_eq]
  · exact applyInput_reset hreset s

/-- Settles O36: either input leaves all-ones, which READ finalises to 0. -/
theorem emptyMessageRespondsZero : Obligations.EmptyMessageRespondsZero := by
  unfold Obligations.EmptyMessageRespondsZero
  intro s first h
  rw [runInputs_cons (applyInput_of_starts_message h s), runInputs_cons_read (writeCrc_crc _ s),
    finalise_initialValue]
  rfl

end Sys2Proof.Machine
end

section
/-! ## The value of a message (43_message_function.md R57 to R59)

The value is a fold of the step, so a message may be fed in pieces, with IDLEs and READs between them. -/

namespace Sys2Proof.Machine

/-- Settles O31: INIT writes without reading, so the run is `runInputs_message_read` from every state. -/
theorem messageValueIsAFunctionOfTheMessage : Obligations.MessageValueIsAFunctionOfTheMessage := by
  unfold Obligations.MessageValueIsAFunctionOfTheMessage
  exact fun m => ⟨crc32 m, rfl, fun s => ⟨runBytes Config.initialValue m, runInputs_message_read m s⟩⟩

/-- IDLEs and READs go on from a block that holds a value, and leave that value (43_message_function.md R58). -/
theorem runInputs_idles_reads {inputs : List Input} (hi : ∀ i ∈ inputs, i.does .idle = true ∨ i.does .read = true)
    {s : State} {c : Word} (hc : s.crc = some c) :
    ∃ s', runInputs inputs s = .next s' ∧ s'.crc = some c := by
  induction inputs generalizing s with
  | nil => exact ⟨s, rfl, hc⟩
  | cons i rest ih =>
    obtain ⟨hfirst, hrest⟩ := List.forall_mem_cons.mp hi
    rcases hfirst with hidle | hread
    · rw [runInputs_cons (applyInput_of_does_idle hidle s)]
      exact ih hrest hc
    · obtain ⟨hreset, hpresented⟩ := does_iff.mp hread
      rw [runInputs_cons (by rw [applyInput_command hreset, hpresented, execRead_eq hc])]
      exact ih hrest hc

/-- A message fed in two pieces, with IDLEs and READs between them, leaves the value of the whole
(43_message_function.md R58). -/
theorem runInputs_pieces {s : State} {c : Word} (hc : s.crc = some c) (a b : List Byte) {between : List Input}
    (hi : ∀ i ∈ between, i.does .idle = true ∨ i.does .read = true) :
    ∃ s', runInputs (updateInputs a ++ between ++ updateInputs b) s = .next s' ∧
      s'.crc = some (runBytes c (a ++ b)) := by
  obtain ⟨t, ht, htc⟩ := runInputs_idles_reads hi (s := { s with crc := some (runBytes c a) }) rfl
  rw [List.append_assoc, runInputs_append (runInputs_updates_crc a hc), runInputs_append ht,
    runInputs_updates_crc b htc, runBytes_append]
  exact ⟨_, rfl, rfl⟩

/-- Settles O32: `runBytes` is a fold; the two messages of one value are the empty one and that of R17, and one byte in
front of them tells them apart. -/
theorem messagesCompose : Obligations.MessagesCompose := by
  unfold Obligations.MessagesCompose
  refine ⟨fun _ => rfl, fun c a b => ⟨runBytes_append c a b, rfl⟩, fun s c a b between hc hi =>
    runInputs_pieces hc a b hi, [0x00#8], [], [0x9D#8, 0x0A#8, 0xD9#8, 0x6D#8], ?_, ?_⟩
  · rw [crc32, crc32, runBytes_collision_with_empty]
    rfl
  · decide +kernel

/-- Settles O33: the value is evaluated in `crc32_checkMessage`. -/
theorem checkValue : Obligations.CheckValue := by
  unfold Obligations.CheckValue
  exact crc32_checkMessage

end Sys2Proof.Machine
end

section
/-! ## The register is the remainder of the message polynomial (43_message_function.md R60)

A bit-step multiplies by x modulo G, so a byte multiplies by x^8 and adds its own polynomial at x^32; the message
polynomial grows the same way. The two agree modulo G, and the register's polynomial has degree below that of G. -/

open Polynomial

namespace Sys2Proof.Machine

/-- The polynomial of one byte, its bit 0 the coefficient of x^7. -/
noncomputable def bytePoly (d : Byte) : (ZMod 2)[X] := ∑ i ∈ Finset.range 8, C (gf2 (d.getLsbD i)) * X ^ (7 - i)

/-- The polynomial M(x) of a message (43_message_function.md R60). -/
noncomputable def messagePoly (m : List Byte) : (ZMod 2)[X] :=
  ∑ j ∈ Finset.range (8 * m.length),
    C (gf2 ((m.getD (j / 8) 0#8).getLsbD (j % 8))) * X ^ (8 * m.length - 1 - j)

/-- A byte absorbed stands 24 places above the low end of the register's polynomial. -/
theorem regPoly_zext32 (d : Byte) : regPoly (zext32 d) = bytePoly d * X ^ 24 := by
  rw [regPoly, Finset.sum_range_add _ 8 24, bytePoly, Finset.sum_mul]
  have hhigh : ∑ i ∈ Finset.range 24, C (gf2 ((zext32 d).getLsbD (8 + i))) * X ^ (31 - (8 + i)) = (0 : (ZMod 2)[X]) :=
    Finset.sum_eq_zero fun i _ => by simp [zext32]
  rw [hhigh, add_zero]
  refine Finset.sum_congr rfl fun i hi => ?_
  have hi8 := Finset.mem_range.mp hi
  rw [mul_assoc, ← pow_add, show 31 - i = 7 - i + 24 by omega]
  simp [zext32, show i < 32 by omega]

@[simp] theorem messagePoly_nil : messagePoly [] = 0 := rfl

/-- A byte appended moves the bits before it up by 8. -/
theorem messagePoly_concat (m : List Byte) (d : Byte) :
    messagePoly (m ++ [d]) = messagePoly m * X ^ 8 + bytePoly d := by
  have hlen : 8 * (m ++ [d]).length = 8 * m.length + 8 := by simp [Nat.mul_succ]
  rw [messagePoly, hlen, Finset.sum_range_add, messagePoly, Finset.sum_mul, bytePoly]
  refine congrArg₂ (· + ·) ?_ ?_
  · refine Finset.sum_congr rfl fun j hj => ?_
    have hj8 := Finset.mem_range.mp hj
    rw [mul_assoc, ← pow_add, List.getD_append _ _ _ _ (by omega),
      show 8 * m.length + 8 - 1 - j = 8 * m.length - 1 - j + 8 by omega]
  · refine Finset.sum_congr rfl fun i hi => ?_
    have hi8 := Finset.mem_range.mp hi
    rw [show (8 * m.length + i) / 8 = m.length by omega, show (8 * m.length + i) % 8 = i by omega,
      show 8 * m.length + 8 - 1 - (8 * m.length + i) = 7 - i by omega]
    simp

/-- One byte multiplies by x^8 and adds its polynomial at x^32, modulo G. -/
theorem generator_dvd_crcStep (c : Word) (d : Byte) :
    generator ∣ regPoly (crcStep c d) - (regPoly c * X ^ 8 + bytePoly d * X ^ 32) := by
  have h := generator_dvd_bitSteps 8 (c ^^^ zext32 d)
  rw [regPoly_xor, regPoly_zext32] at h
  rw [crcStep]
  convert h using 1
  ring

/-- The register after a message and the polynomial of R60 agree modulo G. -/
theorem generator_dvd_runBytes (c : Word) (m : List Byte) :
    generator ∣ regPoly (runBytes c m) - (messagePoly m * X ^ 32 + regPoly c * X ^ (8 * m.length)) := by
  induction m using List.reverseRecOn with
  | nil => simp
  | append_singleton m d ih =>
    rw [runBytes_concat, messagePoly_concat, List.length_append, List.length_singleton, Nat.mul_succ, pow_add]
    convert dvd_add (generator_dvd_crcStep (runBytes c m) d) (ih.mul_right (X ^ 8)) using 1
    ring

/-- A register whose polynomial agrees with p modulo G is the remainder of p. -/
theorem regPoly_eq_modByMonic {c : Word} {p : (ZMod 2)[X]} (h : generator ∣ regPoly c - p) :
    regPoly c = p %ₘ generator := by
  have hdegree : (regPoly c).degree < generator.degree := by
    rw [generator_degree]
    exact regPoly_degree c
  rw [← modByMonic_eq_of_dvd_sub generator_monic h, (modByMonic_eq_self_iff generator_monic).mpr hdegree]

/-- After INIT and the UPDATEs of m, the register holds the remainder of m (43_message_function.md R60). -/
theorem regPoly_runBytes_initialValue (m : List Byte) :
    regPoly (runBytes Config.initialValue m)
      = (messagePoly m * X ^ 32 + (∑ k ∈ Finset.range 32, X ^ k) * X ^ (8 * m.length)) %ₘ generator := by
  rw [← regPoly_allOnes]
  exact regPoly_eq_modByMonic (generator_dvd_runBytes _ m)

theorem isRemainderOf_runBytes (m : List Byte) : IsRemainderOf (runBytes Config.initialValue m) m := by
  unfold IsRemainderOf
  intro N u M G R i hi
  calc gf2 ((runBytes Config.initialValue m).getLsbD i)
      = (regPoly (runBytes Config.initialValue m)).coeff (31 - i) := (regPoly_coeff _ hi).symm
    _ = R.coeff (31 - i) := by rw [regPoly_runBytes_initialValue]; rfl

/-- Settles O38: the register's polynomial is the remainder, by induction on the bytes of the message. -/
theorem registerIsThePolynomialRemainder : Obligations.RegisterIsThePolynomialRemainder := by
  unfold Obligations.RegisterIsThePolynomialRemainder
  exact fun m s => ⟨runBytes Config.initialValue m, runInputs_init_updates m s, isRemainderOf_runBytes m, rfl⟩

end Sys2Proof.Machine
end

section
/-! ## The affine law (43_message_function.md R61)

The step is additive in register and byte together, so a run is additive in register and message. The XOR of two values
is then a run from 0 on the XOR of the messages, in which initial value and final XOR have cancelled. -/

namespace Sys2Proof.Machine

/-- The step is linear over GF(2) in register and byte together (43_message_function.md R61). -/
theorem crcStep_xor (a b : Word) (d e : Byte) : crcStep (a ^^^ b) (d ^^^ e) = crcStep a d ^^^ crcStep b e := by
  have hparts : a ^^^ b ^^^ zext32 (d ^^^ e) = (a ^^^ zext32 d) ^^^ (b ^^^ zext32 e) := by
    rw [zext32_xor]
    ac_rfl
  rw [crcStep, hparts, bitSteps_xor, crcStep, crcStep]

/-- A run is additive in register and message. -/
theorem runBytes_xor {p q : List Byte} (hlen : p.length = q.length) (a b : Word) :
    runBytes (a ^^^ b) (List.zipWith (· ^^^ ·) p q) = runBytes a p ^^^ runBytes b q := by
  induction p generalizing q a b with
  | nil =>
    obtain rfl : q = [] := List.eq_nil_of_length_eq_zero hlen.symm
    rfl
  | cons d p ih =>
    cases q with
    | nil => simp at hlen
    | cons e q =>
      rw [List.zipWith_cons_cons, runBytes_cons, crcStep_xor, ih (Nat.succ.inj hlen)]
      rfl

theorem finalise_xor (a b : Word) : finalise (a ^^^ b) = a ^^^ finalise b := BitVec.xor_assoc a b _

/-- In a difference the final XOR cancels. -/
theorem finalise_xor_finalise (a b : Word) : finalise a ^^^ finalise b = a ^^^ b := by
  calc finalise a ^^^ finalise b
      = a ^^^ b ^^^ (Config.finalXor ^^^ Config.finalXor) := by rw [finalise, finalise]; ac_rfl
    _ = a ^^^ b := by rw [BitVec.xor_self, BitVec.xor_zero]

/-- The XOR of two values is the run from 0 on the XOR of the messages (43_message_function.md R61). -/
theorem crc32_xor_crc32 {p q : List Byte} (hlen : p.length = q.length) :
    crc32 p ^^^ crc32 q = runBytes 0#32 (List.zipWith (· ^^^ ·) p q) := by
  have hinit : Config.initialValue ^^^ Config.initialValue = 0#32 := BitVec.xor_self
  rw [crc32, crc32, finalise_xor_finalise, ← runBytes_xor hlen, hinit]

/-- Settles O41: XORing a message of the same length into one adds the run of the other two from 0. -/
theorem affineLaw : Obligations.AffineLaw := by
  unfold Obligations.AffineLaw
  intro xor
  have hzero : crc32 [0x00#8] = 0xD202EF8D#32 := by decide +kernel
  refine ⟨fun a b c hab hbc => ?_, fun a b a' b' hab hab' _ hxor => ?_, finalise_initialValue, hzero,
    [0x00#8], [0x00#8], rfl, ?_⟩
  · have hlen : (xor a b).length = c.length := by simp [xor, hab, hbc]
    calc crc32 (xor (xor a b) c)
        = finalise (runBytes (0#32 ^^^ Config.initialValue) (xor (xor a b) c)) := by rw [BitVec.zero_xor, crc32]
      _ = runBytes 0#32 (xor a b) ^^^ crc32 c := by rw [runBytes_xor hlen, finalise_xor, crc32]
      _ = crc32 a ^^^ crc32 b ^^^ crc32 c := by rw [crc32_xor_crc32 hab]
  · rw [crc32_xor_crc32 hab, crc32_xor_crc32 hab']
    exact congrArg _ hxor
  · have hself : xor [0x00#8] [0x00#8] = [0x00#8] := rfl
    rw [hself, hzero]
    decide

end Sys2Proof.Machine
end

section
/-! ## The residue (43_message_function.md R63)

Four bytes fed are their word, the first byte lowest. Fed least significant first, the checksum is that word itself, and
XORed into the register it leaves all-ones, whatever the message was. -/

namespace Sys2Proof.Machine

/-- The bytes of a word, least significant first, are absorbed as that word. -/
theorem runBytes_littleEndianBytes (c v : Word) : runBytes c (littleEndianBytes v) = bitStep^[32] (c ^^^ v) := by
  rw [littleEndianBytes, runBytes_four, wireValue_byteOf]

/-- The finalised value of a register XORed into it leaves the final XOR. -/
theorem xor_finalise (c : Word) : c ^^^ finalise c = Config.finalXor := by
  rw [finalise, ← BitVec.xor_assoc, BitVec.xor_self, BitVec.zero_xor]

/-- A message and its checksum, least significant byte first, end at the residue (43_message_function.md R63). -/
theorem runBytes_residue (m : List Byte) :
    runBytes Config.initialValue (m ++ littleEndianBytes (crc32 m)) = Config.residue := by
  rw [runBytes_append, runBytes_littleEndianBytes, crc32, xor_finalise]
  decide +kernel

/-- The message 123456789 and its checksum in stream order (43_message_function.md R63). -/
theorem runBytes_checkMessage_stream :
    runBytes Config.initialValue ([0x31#8, 0x32#8, 0x33#8, 0x34#8, 0x35#8, 0x36#8, 0x37#8, 0x38#8, 0x39#8]
      ++ bigEndianBytes Config.checkValue) = 0xC3368BD3#32 := by decide +kernel

/-- Settles O43: the residue is `runBytes_residue`; in stream order 123456789 and the message of an empty chunk IEND end
at two values. -/
theorem residueOnlyForTheOtherByteOrder : Obligations.ResidueOnlyForTheOtherByteOrder := by
  unfold Obligations.ResidueOnlyForTheOtherByteOrder
  have hcheck : runBytes Config.initialValue
      ([0x31#8, 0x32#8, 0x33#8, 0x34#8, 0x35#8, 0x36#8, 0x37#8, 0x38#8, 0x39#8] ++ bigEndianBytes
        (crc32 [0x31#8, 0x32#8, 0x33#8, 0x34#8, 0x35#8, 0x36#8, 0x37#8, 0x38#8, 0x39#8])) = 0xC3368BD3#32 := by
    rw [crc32_checkMessage, runBytes_checkMessage_stream]
  refine ⟨runBytes_residue, by decide, hcheck, fun ⟨c, hc⟩ => ?_⟩
  have hiend : runBytes Config.initialValue ([0x49#8, 0x45#8, 0x4E#8, 0x44#8]
      ++ bigEndianBytes (crc32 [0x49#8, 0x45#8, 0x4E#8, 0x44#8])) ≠ 0xC3368BD3#32 := by decide +kernel
  exact hiend ((hc _).trans ((hc _).symm.trans hcheck))

end Sys2Proof.Machine
end

section
/-! ## Chunks (43_message_function.md R64 to R69) -/

namespace Sys2Proof.Machine

theorem vector_four_toList (t : Vector Byte 4) : t.toList = [t[0], t[1], t[2], t[3]] := by
  obtain ⟨⟨bytes⟩, hlen⟩ := t
  match bytes, hlen with
  | [_, _, _, _], _ => rfl

theorem chunkMessage_length (t : Vector Byte 4) (p : List Byte) : (chunkMessage t p).length = 4 + p.length := by
  simp [chunkMessage]

/-- What the host presents for a chunk, command by command (43_message_function.md R64). -/
theorem chunkInputs_eq (t : Vector Byte 4) (p : List Byte) :
    chunkInputs t p = [Input.ofInstr .init, Input.ofInstr (.update t[0]), Input.ofInstr (.update t[1]),
        Input.ofInstr (.update t[2]), Input.ofInstr (.update t[3])]
      ++ updateInputs p ++ [Input.ofInstr .read] := by
  rw [chunkInputs, messageInputs, chunkMessage, vector_four_toList]
  rfl

/-- The commands of a chunk complete from every state, with its checksum as the one response. -/
theorem runInputs_chunkInputs (t : Vector Byte 4) (p : List Byte) (s : State) :
    runInputs (chunkInputs t p) s
      = .next { s with
          crc := some (runBytes Config.initialValue (chunkMessage t p))
          responses := s.responses ++ [crc32 (chunkMessage t p)] } :=
  runInputs_message_read (chunkMessage t p) s

/-- The chunk in stream order: length, message, checksum (43_message_function.md R65, R66). -/
theorem serialise_create (t : Vector Byte 4) {p : List Byte} (hp : p.length < 2 ^ 32) :
    (Chunk.create t p).serialise = some (bigEndianBytes (BitVec.ofNat 32 p.length)
      ++ (chunkMessage t p ++ bigEndianBytes (crc32 (chunkMessage t p)))) := by
  rw [Chunk.serialise, if_pos (show (Chunk.create t p).payload.length < 2 ^ 32 from hp)]
  simp [Chunk.create, chunkMessage]

@[simp] theorem bigEndianBytes_length (v : Word) : (bigEndianBytes v).length = 4 := rfl

/-- Settles O49: the run is that of the chunk's message, which stands in the stream between two words of four bytes. -/
theorem chunkChecksum : Obligations.ChunkChecksum := by
  unfold Obligations.ChunkChecksum
  refine ⟨fun t p s => ⟨chunkInputs_eq t p, chunkMessage_length t p, _, runInputs_chunkInputs t p s⟩,
    fun t p hp => ⟨_, serialise_create t hp, ?_, ?_, ?_, ?_⟩⟩
  · simp only [List.length_append, bigEndianBytes_length, chunkMessage_length]
    omega
  · rw [← chunkMessage_length t p, List.drop_left' (bigEndianBytes_length _), List.take_left]
  · have hpos : 8 + p.length = 4 + (chunkMessage t p).length := by rw [chunkMessage_length]; omega
    rw [hpos, ← List.drop_drop, List.drop_left' (bigEndianBytes_length _), List.drop_left]
  · rw [List.take_left' (bigEndianBytes_length _)]

/-- A wire value equal to the message's value is accepted, and the chunk holds that value (43_message_function.md R67,
R68). -/
theorem verifyChunk_of_eq {t : Vector Byte 4} {p : List Byte} {wire : Word} (h : crc32 (chunkMessage t p) = wire) :
    verifyChunk t p wire = .ok (Chunk.create t p) := by
  simp [verifyChunk, compareChecksum, h, Chunk.create]

/-- Any other wire value is a mismatch (43_message_function.md R67). -/
theorem verifyChunk_of_ne {t : Vector Byte 4} {p : List Byte} {wire : Word} (h : crc32 (chunkMessage t p) ≠ wire) :
    verifyChunk t p wire = .error .checksumMismatch := by
  simp [verifyChunk, compareChecksum, h]

/-- Settles O50: the one response is the value that verification compares. -/
theorem verificationComparesTheResponse : Obligations.VerificationComparesTheResponse := by
  unfold Obligations.VerificationComparesTheResponse
  exact fun t p wire s => ⟨_, _, runInputs_chunkInputs t p s, verifyChunk_of_eq, verifyChunk_of_ne⟩

/-- Settles O51: the two messages differ, and so do their values, evaluated. -/
theorem workedChunkValueCorrected : Obligations.WorkedChunkValueCorrected := by
  unfold Obligations.WorkedChunkValueCorrected
  exact ⟨by decide +kernel, rfl, by decide +kernel, rfl, by decide +kernel⟩

end Sys2Proof.Machine
end

section
/-! ## Error detection (43_message_function.md R62)

From one register, four bytes lead to a value each in one way, and equal bytes afterwards keep different values
different; so a change inside four bytes is never lost. Five bytes lead to some value in more than one way. -/

namespace Sys2Proof.Machine

theorem finalise_injective : Function.Injective finalise := fun _ _ h => (BitVec.xor_left_inj _).mp h

theorem xor_twoPow_ne {w i : Nat} (hi : i < w) (v : BitVec w) : v ^^^ BitVec.twoPow w i ≠ v := by
  intro h
  have hbit := congrArg (BitVec.getLsbD · i) h
  simp [hi] at hbit

/-- One byte changed changes the value (43_message_function.md R62). -/
theorem crc32_ne_of_one_byte (p q : List Byte) {d e : Byte} (hne : d ≠ e) :
    crc32 (p ++ d :: q) ≠ crc32 (p ++ e :: q) :=
  finalise_injective.ne (runBytes_ne_of_one_byte p q hne _)

/-- From one register, different sequences of four bytes lead to different values (10_state.md R19). -/
theorem eq_of_runBytes_eq_of_length_four {c : Word} {a b : List Byte} (ha : a.length = 4) (hb : b.length = 4)
    (h : runBytes c a = runBytes c b) : a = b := by
  match a, b, ha, hb with
  | [a0, a1, a2, a3], [b0, b1, b2, b3], _, _ =>
    have hbytes : (a0, a1, a2, a3) = (b0, b1, b2, b3) := (runBytes_four_bijective c).injective h
    simpa using hbytes

/-- From one register, different sequences of one length up to four lead to different values: fill them up to four. -/
theorem eq_of_runBytes_eq_of_length_le_four {c : Word} {a b : List Byte} (hlen : a.length = b.length)
    (hfour : a.length ≤ 4) (h : runBytes c a = runBytes c b) : a = b := by
  have hfill : runBytes c (a ++ List.replicate (4 - a.length) 0#8)
      = runBytes c (b ++ List.replicate (4 - a.length) 0#8) := by rw [runBytes_append, runBytes_append, h]
  refine List.append_cancel_right (eq_of_runBytes_eq_of_length_four ?_ ?_ hfill)
  · rw [List.length_append, List.length_replicate]
    omega
  · rw [List.length_append, List.length_replicate]
    omega

/-- A change inside at most four consecutive bytes changes the value (43_message_function.md R62). -/
theorem crc32_ne_of_window (p q : List Byte) {a b : List Byte} (hlen : a.length = b.length) (hfour : a.length ≤ 4)
    (hne : a ≠ b) : crc32 (p ++ a ++ q) ≠ crc32 (p ++ b ++ q) := by
  intro h
  have hrun := finalise_injective h
  simp only [runBytes_append] at hrun
  exact hne (eq_of_runBytes_eq_of_length_le_four hlen hfour (runBytes_injective q hrun))

/-- Settles O42: one flipped bit is a change of one byte, or of the wire value alone. -/
theorem errorDetection : Obligations.ErrorDetection := by
  unfold Obligations.ErrorDetection
  refine ⟨fun p q d i hi => crc32_ne_of_one_byte p q (xor_twoPow_ne hi d),
    fun p q a b hlen hfour hne => crc32_ne_of_window p q hlen hfour hne, fun t p q d i hi => ?_,
    fun t p i hi => verifyChunk_of_ne (xor_twoPow_ne hi _).symm, ?_, fun t p => ⟨_, verifyChunk_of_eq rfl⟩⟩
  · apply verifyChunk_of_ne
    simp only [chunkMessage, ← List.append_assoc]
    exact crc32_ne_of_one_byte (t.toList ++ p) q (xor_twoPow_ne hi d)
  · exact ⟨[0x00#8, 0x00#8, 0x00#8, 0x00#8, 0x00#8], [0x01#8, 0x96#8, 0x30#8, 0x07#8, 0x77#8], rfl, by decide,
      by decide +kernel⟩

end Sys2Proof.Machine
end

section
/-! ## Reset and the interval before it (70_reset_and_hazards.md R85 to R87)

Reset is one write of all-ones that reads neither `crc` nor the command beside it, so a second reset writes the same
again. Only UPDATE and READ read `crc`. -/

namespace Sys2Proof.Machine

@[simp] theorem takeReset_takeReset (s : State) : takeReset (takeReset s) = takeReset s := rfl

/-- Resets after a reset change nothing more, whatever stands beside them (70_reset_and_hazards.md R87). -/
theorem runInputs_resets_after_reset {inputs : List Input} (hreset : ∀ i ∈ inputs, i.reset = true) (s : State) :
    runInputs inputs (takeReset s) = .next (takeReset s) := by
  induction inputs with
  | nil => rfl
  | cons i rest ih =>
    obtain ⟨hi, hrest⟩ := List.forall_mem_cons.mp hreset
    rw [runInputs_cons (applyInput_reset hi _), takeReset_takeReset, ih hrest]

/-- Settles O6: the first reset writes all-ones as INIT does, and the resets after it write the same again. -/
theorem resetWinsOverAnyCommand : Obligations.ResetWinsOverAnyCommand := by
  unfold Obligations.ResetWinsOverAnyCommand
  refine ⟨fun s command => applyInput_reset rfl s, fun s => ?_, fun s first more => ?_⟩
  · rw [applyInput_of_starts_message (.inr ofReset_reset), execInit_eq]
  · have hmore : ∀ i ∈ more.map fun command => ({ reset := true, command := command } : Input), i.reset = true :=
      List.forall_mem_map.mpr fun _ _ => rfl
    rw [List.map_cons, runInputs_cons (applyInput_reset rfl s)]
    exact runInputs_resets_after_reset hmore s

/-- Settles O7: at power-up there is no value, and both commands read `crc` through `withCrc`, which faults there. -/
theorem noValueBeforeTheFirstReset : Obligations.NoValueBeforeTheFirstReset := by
  unfold Obligations.NoValueBeforeTheFirstReset
  exact ⟨reset_crc, powerUp_crc, fun _ hnone => withCrc_none hnone _, fun _ _ hnone => withCrc_none hnone _⟩

end Sys2Proof.Machine
end

section
/-! ## The ports (70_reset_and_hazards.md R96)

The pins present reset, nothing, or a word of one of the four rows of the opcode map; in each case `nextCrc` and
`resultValid` are read off the opcode. -/

namespace Sys2Proof.Machine

/-- Pins without reset and with `cmd_valid = 1` present the word on `cmd`. -/
theorem toInput_of_command (cmd : CmdWord) :
    ({ rst := false, cmdValid := true, cmd := cmd } : Pins).toInput = Input.ofWord cmd := rfl

/-- `cmd_valid = 0` is IDLE (70_reset_and_hazards.md R96). -/
theorem toInput_presented_of_no_command {p : Pins} (h : p.cmdValid = false) : p.toInput.presented = .idle := by
  simp [Pins.toInput, Input.presented, h]

/-- A word is a READ exactly when its opcode is 3 (30_encoding.md R35). -/
theorem decode_eq_read_iff (w : CmdWord) : decode w = .read ↔ opField w = 0b11#2 := by
  obtain ⟨data, rfl | rfl | rfl | rfl⟩ := commandWord_cases w <;> simp

/-- `result_valid` is 1 exactly when `rst = 0` and the command is READ (70_reset_and_hazards.md R96). -/
theorem resultValid_iff (p : Pins) : resultValid p = true ↔ p.rst = false ∧ p.toInput.presented = .read := by
  cases hvalid : p.cmdValid with
  | false => simp [resultValid, hvalid, toInput_presented_of_no_command hvalid]
  | true =>
    have hpresented : p.toInput.presented = decode p.cmd := by simp [Pins.toInput, Input.presented, hvalid]
    simp [resultValid, hvalid, hpresented, decode_eq_read_iff]

/-- What the block does at an edge is what the ports say: the next-state function, and `result` as the response when it
is valid (70_reset_and_hazards.md R96). -/
theorem applyInput_toInput (p : Pins) {s : State} {c : Word} (hc : s.crc = some c) :
    applyInput p.toInput s = .next { s with
      crc := some (nextCrc p c)
      responses := s.responses ++ if resultValid p then [resultPort c] else [] } := by
  match p with
  | ⟨true, cmdValid, cmd⟩ =>
    rw [applyInput_reset rfl]
    simp [takeReset, writeCrc, nextCrc, resultValid, Config.resetValue]
  | ⟨false, false, cmd⟩ =>
    rw [toInput_of_no_command, applyInput_of_does_idle nothing_does_idle]
    simp [nextCrc, resultValid, ← hc]
  | ⟨false, true, cmd⟩ =>
    rw [toInput_of_command, applyInput_command (ofWord_reset cmd), ofWord_presented]
    obtain ⟨data, rfl | rfl | rfl | rfl⟩ := commandWord_cases cmd
    · rw [decode_commandWord_idle, execIdle_eq]
      simp [nextCrc, resultValid, ← hc]
    · rw [decode_commandWord_init, execInit_eq]
      simp [nextCrc, resultValid, writeCrc, Config.initialValue]
    · rw [decode_commandWord_update, execUpdate_eq hc]
      simp [nextCrc, resultValid, writeCrc]
    · rw [decode_commandWord_read, execRead_eq hc]
      simp [nextCrc, resultValid, resultPort, respond, ← hc]

/-- Settles O45: all clauses about the block are `applyInput_toInput`, with `nextCrc` written out or the host's side
empty. -/
theorem portsAgreeWithTheBlock : Obligations.PortsAgreeWithTheBlock := by
  unfold Obligations.PortsAgreeWithTheBlock
  refine ⟨fun _ => rfl, fun p s c hc => ?_, fun p c => applyInput_toInput p rfl, resultValid_iff,
    fun _ => toInput_presented_of_no_command⟩
  rw [applyInput_toInput p hc]
  simp only [nextCrc, opField, dataField, Bool.and_eq_true, beq_iff_eq]

end Sys2Proof.Machine
end

section
/-! ## Decoding what was encoded (30_encoding.md sections 1 and 2)

A command is read back from its canonical word, and a word loses its ignored data field alone. Presented next, a word
runs the command it decodes to. -/

namespace Sys2Proof

/-- There is no ill-formed command (30_encoding.md R36). -/
theorem wellFormed_eq_true (i : Instr) : i.wellFormed = true := by
  cases i with
  | idle => exact Laws.Encoding.idle.1
  | init => exact Laws.Encoding.init.1
  | update d => exact (Laws.Encoding.update d).1
  | read => exact Laws.Encoding.read.1

@[simp] theorem decode_encode (i : Instr) : decode (encode i) = i := Machine.ofInstr_presented i

theorem encode_injective : Function.Injective encode := Function.LeftInverse.injective decode_encode

/-- A command word, given as a number, decodes as the word does (30_encoding.md R36). -/
theorem decodeNat_toNat (w : CmdWord) : decodeNat w.toNat = .ok (decode w) := by
  have hword : isCommandWord w.toNat = true := decide_eq_true w.isLt
  rw [decodeNat, if_pos hword, BitVec.ofNat_toNat, BitVec.setWidth_eq]

/-- Encoding again what a word decodes to keeps an UPDATE and clears the ignored field of any other command
(30_encoding.md R36). -/
theorem encode_decode (w : CmdWord) :
    encode (decode w) = if w &&& 0x300#10 = 0x200#10 then w else w &&& 0x300#10 := by
  obtain ⟨data, rfl | rfl | rfl | rfl⟩ := commandWord_cases w
  · rw [decode_commandWord_idle, commandWord_and_mask]; rfl
  · rw [decode_commandWord_init, commandWord_and_mask]; rfl
  · rw [decode_commandWord_update, commandWord_and_mask]; rfl
  · rw [decode_commandWord_read, commandWord_and_mask]; rfl

end Sys2Proof

namespace Sys2Proof.Machine

/-- A word presented next runs the command it decodes to, on the state as it was (00_scope.md section 5). -/
theorem step_word_presented (w : CmdWord) (s : State) :
    step { s with input := Input.ofWord w :: s.input } = exec (decode w) s := by
  rw [step_cons, applyInput_command (ofWord_reset w), ofWord_presented]

/-- Settles O11: `decode` is a left inverse of `encode`, and only the data field of an UPDATE is part of a command. -/
theorem decodeAndEncodeAgree : Obligations.DecodeAndEncodeAgree := by
  unfold Obligations.DecodeAndEncodeAgree
  refine ⟨fun i => ⟨wellFormed_eq_true i, decode_encode i, ?_⟩, fun _ _ h => encode_injective h, encode_decode,
    fun i s => ?_⟩
  · rw [decodeNat_toNat, decode_encode]
  · rw [step_word_presented, decode_encode]

/-- Settles O12: each word is an opcode beside a data field, which the decoder reads for UPDATE alone. -/
theorem specWordsDecode : Obligations.SpecWordsDecode := by
  unfold Obligations.SpecWordsDecode
  exact ⟨decode_commandWord_idle 0x00#8, decode_commandWord_idle 0xFF#8, decode_commandWord_init 0x00#8,
    decode_commandWord_init 0xAB#8, decode_commandWord_update 0x00#8, decode_commandWord_update 0x31#8,
    decode_commandWord_update 0xFF#8, decode_commandWord_read 0x00#8, decode_commandWord_read 0xFF#8⟩

/-- The decoder reads a command from a table word that is a command word, and nothing else (30_encoding.md R36). -/
theorem decodeTableWord_eq (nbits w : Nat) : decodeTableWord nbits w =
    if isCommandWord (tableWord nbits w) then some (decode (BitVec.ofNat 10 (tableWord nbits w))) else none := by
  rw [decodeTableWord, decodeNat]
  cases isCommandWord (tableWord nbits w) with
  | true => rfl
  | false => rfl

/-- Settles O15: a table word below 1024 is presented as it stands, and is the word the decoder reads. -/
theorem fetchWordRunsNext : Obligations.FetchWordRunsNext := by
  unfold Obligations.FetchWordRunsNext
  intro s nbits w
  rw [decodeTableWord_eq, State.withFetchWord, presentNext]
  cases hword : isCommandWord (tableWord nbits w) with
  | true =>
    have hlt : w % 2 ^ nbits < 1024 := of_decide_eq_true hword
    refine ⟨fun i hi => ?_, by simp [hlt]⟩
    obtain rfl : decode (BitVec.ofNat 10 (tableWord nbits w)) = i := Option.some.inj hi
    exact step_word_presented _ s
  | false =>
    have hle : ¬ w % 2 ^ nbits < 1024 := of_decide_eq_false hword
    exact ⟨fun i hi => (nomatch hi), by simpa using hle⟩

end Sys2Proof.Machine
end

section
/-! ## The step (00_scope.md section 5, 60_exceptions.md section 3)

A step applies the next input to a state with that input consumed. It stops only where an UPDATE or READ reads a
missing value; so a block that holds a value goes on, for ever. -/

namespace Sys2Proof.Machine

/-- Settles O13: the three kinds of input, each by what `applyInput` does with it. -/
theorem stepRunsThePresentedCommand : Obligations.StepRunsThePresentedCommand := by
  unfold Obligations.StepRunsThePresentedCommand
  refine fun crc rest responses => ⟨fun w => ?_, ?_, fun command => ?_⟩
  · exact step_word_presented w ⟨crc, rest, responses⟩
  · exact applyInput_of_does_idle nothing_does_idle ⟨crc, rest, responses⟩
  · exact applyInput_reset (i := ⟨true, command⟩) rfl ⟨crc, rest, responses⟩

/-- Settles O14: with an empty queue the next input is `Input.nothing`, which is IDLE. -/
theorem emptyQueueIsIdle : Obligations.EmptyQueueIsIdle := by
  unfold Obligations.EmptyQueueIsIdle
  exact fun crc responses => applyInput_of_does_idle nothing_does_idle ⟨crc, [], responses⟩

/-- An input that does a command has that command's effect (70_reset_and_hazards.md R87). -/
theorem applyInput_of_does {i : Input} {c : Instr} (h : i.does c = true) (s : State) : applyInput i s = exec c s := by
  obtain ⟨hreset, hpresented⟩ := does_iff.mp h
  rw [applyInput_command hreset, hpresented]

/-- An input stops the block exactly when it is a READ or UPDATE that finds no value (93_implementation_defined.md
U2). -/
theorem applyInput_eq_fault_iff {i : Input} {s : State} {r : Fault} :
    applyInput i s = .fault r ↔ s.crc = none ∧ (i.does .read = true ∨ ∃ d, i.does (.update d) = true) := by
  constructor
  · intro h
    rcases applyInput_stops (i := i) (s := s) with ⟨s', e⟩ | ⟨_, hnone, hreset, hread | ⟨d, hupdate⟩⟩
    · rw [e] at h; cases h
    · exact ⟨hnone, .inl (does_iff.mpr ⟨hreset, hread⟩)⟩
    · exact ⟨hnone, .inr ⟨d, does_iff.mpr ⟨hreset, hupdate⟩⟩⟩
  · cases r
    rintro ⟨hnone, hread | ⟨d, hupdate⟩⟩
    · exact (applyInput_of_does hread s).trans (withCrc_none hnone _)
    · exact (applyInput_of_does hupdate s).trans (withCrc_none hnone _)

/-- No input is refused: all four commands have their meaning. -/
theorem applyInput_ne_refused (i : Input) (s : State) (r : Refusal) : applyInput i s ≠ .refused r := by
  rcases applyInput_stops (i := i) (s := s) with ⟨s', e⟩ | ⟨e, _⟩ <;> simp [e]

/-- Settles O8: a step is its next input applied, and consuming an input leaves `crc`. -/
theorem stepStopsExactlyOnAMissingValue : Obligations.StepStopsExactlyOnAMissingValue := by
  unfold Obligations.StepStopsExactlyOnAMissingValue
  exact fun s => ⟨fun _ => applyInput_eq_fault_iff, applyInput_ne_refused (nextInput s) (consumeInput s)⟩

/-- No input touches the inputs yet to be presented. -/
theorem applyInput_input {i : Input} {s s' : State} (h : applyInput i s = .next s') : s'.input = s.input := by
  rcases applyInput_next h with ⟨_, rfl⟩ | ⟨_, _, rfl⟩ | ⟨_, _, rfl⟩ | ⟨_, d, c, _, _, rfl⟩ | ⟨_, _, c, _, rfl⟩
  · exact takeReset_input s
  · rfl
  · exact writeCrc_input _ s
  · exact writeCrc_input _ s
  · exact respond_input _ s

/-- A step consumes one input (20_memory.md R31). -/
theorem step_input {s s' : State} (h : step s = .next s') : s'.input = s.input.tail := by
  rw [applyInput_input h, consumeInput_input]

/-- A block that holds a value goes on, and still holds one (60_exceptions.md section 3). -/
theorem step_of_ready {s : State} (h : Ready s) : ∃ s', step s = .next s' ∧ Ready s' :=
  applyInput_of_ready (i := nextInput s) (s := consumeInput s) h

/-- Settles O20: progress by `step_of_ready`, and the host's side by `step_input` and `step_responses`. -/
theorem readyIsKeptByEveryStep : Obligations.ReadyIsKeptByEveryStep := by
  unfold Obligations.ReadyIsKeptByEveryStep
  intro s hs
  obtain ⟨s', hstep, hs'⟩ := step_of_ready hs
  refine ⟨s', hstep, hs', step_input hstep, ?_⟩
  rcases step_responses hstep with e | ⟨_, c, _, e⟩
  · exact ⟨[], by rw [e, List.append_nil], Nat.zero_le 1⟩
  · exact ⟨[finalise c], e, le_rfl⟩

/-- Settles O21: reset writes a value, and power-up has none. -/
theorem readyAtReset : Obligations.ReadyAtReset := by
  unfold Obligations.ReadyAtReset Ready
  rw [reset_crc, powerUp_crc]
  exact ⟨rfl, Bool.false_ne_true⟩

/-- Settles O22, by induction on the number of steps: each step goes on and keeps the invariant. -/
theorem everyRunGoesOn : Obligations.EveryRunGoesOn := by
  unfold Obligations.EveryRunGoesOn
  intro n
  induction n with
  | zero => exact fun s hs => ⟨s, run_zero s, hs⟩
  | succ n ih =>
    intro s hs
    obtain ⟨t, hstep, ht⟩ := step_of_ready hs
    rw [run_succ hstep]
    exact ih t ht

/-- Settles O16, by induction on the inputs: what an input does to `crc` and to the responses does not depend on the
inputs queued behind it. -/
theorem stepsApplyInputsInOrder : Obligations.StepsApplyInputsInOrder := by
  unfold Obligations.StepsApplyInputsInOrder
  intro inputs rest
  induction inputs with
  | nil => exact fun crc responses => rfl
  | cons i inputs ih =>
    intro crc responses
    rcases applyInput_host_side i ⟨crc, inputs ++ rest, responses⟩ rest responses with ⟨crc', new, e, e'⟩ | ⟨e, e'⟩
    · rw [runInputs_cons e', ← ih crc' (responses ++ new)]
      exact run_succ ((step_cons crc i _ responses).trans e) inputs.length
    · rw [runInputs_cons_fault e']
      exact run_succ_fault ((step_cons crc i _ responses).trans e) inputs.length

/-- Settles O46: block k alone is given the input, and its result is stored at k alone. -/
theorem instancesShareNothing : Obligations.InstancesShareNothing := by
  unfold Obligations.InstancesShareNothing
  intro n sys k i
  have hnext {s' : State} (h : applyInput i sys[k] = .next s') : applyAt k i sys = .next (sys.set k s') := by
    rw [applyAt, h]
  refine ⟨fun sys' h => ?_, fun s' h => ⟨_, hnext h, Vector.getElem_set_self _⟩⟩
  rcases applyInput_stops (i := i) (s := sys[k]) with ⟨s', e⟩ | ⟨e, _⟩
  · obtain rfl : sys.set k s' = sys' := Host.Outcome.next.inj ((hnext e).symm.trans h)
    refine ⟨by rw [e]; simp, fun j hj => ?_⟩
    exact Vector.getElem_set_ne _ _ fun hkj => hj (Fin.ext hkj.symm)
  · rw [applyAt, e] at h; cases h

end Sys2Proof.Machine
end

section
/-! ## The message behind the register (20_memory.md sections 1 and 4)

While `crc` is the running value of a message, one input takes it to the running value of the message after that input.
A value is the remainder of a message exactly when it is the message's running value, so the invariant holds in terms of
polynomials too. -/

namespace Sys2Proof.Machine

theorem messageStep_of_does {i : Input} {c : Instr} (h : i.does c = true) (m : List Byte) :
    messageStep m i = messageAfter c m := by
  obtain ⟨hreset, hpresented⟩ := does_iff.mp h
  rw [messageStep_command hreset, hpresented]

/-- IDLE and READ leave the message (20_memory.md R21). -/
theorem messageStep_of_idle_or_read {i : Input} (h : i.does .idle = true ∨ i.does .read = true) (m : List Byte) :
    messageStep m i = m := by
  rcases h with hidle | hread
  · rw [messageStep_of_does hidle, messageAfter]
  · rw [messageStep_of_does hread, messageAfter]

/-- The message after an UPDATE is longer by its byte (20_memory.md R21). -/
theorem messageStep_update (m : List Byte) (d : Byte) : messageStep m (Input.ofInstr (.update d)) = m ++ [d] := by
  rw [messageStep_command (ofInstr_reset _), ofInstr_presented, messageAfter]

theorem foldl_messageStep_updateInputs (m bytes : List Byte) :
    (updateInputs bytes).foldl messageStep m = m ++ bytes := by
  induction bytes generalizing m with
  | nil => simp
  | cons d bytes ih => simp [messageStep_update, ih]

/-- The message is the same with IDLEs and READs taken out (70_reset_and_hazards.md R89). -/
theorem foldl_messageStep_filter (inputs : List Input) (m : List Byte) :
    (inputs.filter fun i => !(i.does .idle || i.does .read)).foldl messageStep m = inputs.foldl messageStep m := by
  rw [List.foldl_filter]
  congr 1
  funext m i
  split
  · rfl
  · next h => exact (messageStep_of_idle_or_read (by simpa [or_iff_not_imp_left] using h) m).symm

/-- One input on a block whose `crc` is the running value of m: the block goes on with the running value of the message
after the input, and a READ gets `CRC32(m)` (20_memory.md R21, 42_result.md R54). -/
theorem applyInput_runningValue (i : Input) {s : State} {m : List Byte}
    (h : s.crc = some (runBytes Config.initialValue m)) :
    applyInput i s = .next { s with
      crc := some (runBytes Config.initialValue (messageStep m i))
      responses := s.responses ++ if i.does .read then [crc32 m] else [] } := by
  cases hreset : i.reset with
  | true =>
    rw [applyInput_reset hreset, messageStep_reset hreset]
    simp [takeReset, writeCrc, Input.does, hreset, Config.resetValue, Config.initialValue]
  | false =>
    rw [applyInput_command hreset, messageStep_command hreset]
    cases hpresented : i.presented with
    | idle =>
      rw [execIdle_eq]
      simp [messageAfter, Input.does, hpresented, ← h]
    | init =>
      rw [execInit_eq]
      simp [messageAfter, Input.does, hpresented, writeCrc]
    | update d =>
      rw [execUpdate_eq h]
      simp [messageAfter, Input.does, hpresented, writeCrc, runBytes_concat]
    | read =>
      rw [execRead_eq h]
      simp [messageAfter, Input.does, hreset, hpresented, respond, crc32, ← h]

theorem gf2_injective : Function.Injective gf2 := by decide

/-- A value is the remainder of m exactly when it is the running value of m (43_message_function.md R60): the bits of a
value are the coefficients of one polynomial. -/
theorem isRemainderOf_iff (c : Word) (m : List Byte) : IsRemainderOf c m ↔ c = runBytes Config.initialValue m := by
  constructor
  · intro h
    apply BitVec.eq_of_getLsbD_eq
    intro i hi
    have hbits : gf2 (c.getLsbD i) = gf2 ((runBytes Config.initialValue m).getLsbD i) :=
      (h i hi).trans (isRemainderOf_runBytes m i hi).symm
    exact gf2_injective hbits
  · rintro rfl
    exact isRemainderOf_runBytes m

/-- Settles O39: the register holds the running value of the message, and one input takes it to the next. -/
theorem remainderOfTheMessageIsKeptByEveryStep : Obligations.RemainderOfTheMessageIsKeptByEveryStep := by
  unfold Obligations.RemainderOfTheMessageIsKeptByEveryStep
  intro s s' m c hc hm hstep
  rw [(isRemainderOf_iff c m).mp hm] at hc
  have hnext := applyInput_runningValue (nextInput s) (s := consumeInput s) hc
  obtain rfl := Host.Outcome.next.inj (hnext.symm.trans hstep)
  exact ⟨_, rfl, isRemainderOf_runBytes _⟩

/-- Settles O40: all-ones is the running value of the empty message. -/
theorem remainderAtReset : Obligations.RemainderAtReset := by
  unfold Obligations.RemainderAtReset
  exact ⟨Config.resetValue, reset_crc, isRemainderOf_runBytes []⟩

/-- Any inputs on a block whose `crc` is the running value of m: the message follows the inputs, `crc` follows the
message, and each READ gets the value of the message so far (20_memory.md section 4). -/
theorem runInputs_runningValue (inputs : List Input) {s : State} {m : List Byte}
    (h : s.crc = some (runBytes Config.initialValue m)) :
    runInputs inputs s = .next { s with
      crc := some (runBytes Config.initialValue (inputs.foldl messageStep m))
      responses := s.responses ++ responsesFrom m inputs } := by
  induction inputs generalizing s m with
  | nil => simp [responsesFrom, ← h]
  | cons i rest ih =>
    rw [runInputs_cons (applyInput_runningValue i h), ih rfl]
    simp [responsesFrom]

/-- Settles O34: this is `runInputs_runningValue`, an induction on the inputs. -/
theorem runsFollowTheMessage : Obligations.RunsFollowTheMessage := by
  unfold Obligations.RunsFollowTheMessage
  exact fun inputs m s h => runInputs_runningValue inputs h

/-- Settles O37: the first input leaves all-ones, and the span takes that to the running value of its message, which
is m: IDLEs and READs leave the message. -/
theorem orderOfAMessage : Obligations.OrderOfAMessage := by
  unfold Obligations.OrderOfAMessage
  intro s first span m hfirst hspan
  have hmessage : span.foldl messageStep [] = m := by
    rw [← foldl_messageStep_filter, hspan, foldl_messageStep_updateInputs, List.nil_append]
  have hrun := runInputs_runningValue span (s := writeCrc Config.initialValue s) (m := []) rfl
  rw [hmessage] at hrun
  rw [runInputs_cons (applyInput_of_starts_message hfirst s), hrun]
  exact ⟨_, _, rfl, execRead_eq rfl, rfl⟩

/-- An input that changes nothing where it has been applied already may as well be presented once. -/
theorem runInputs_twice {i : Input} {s s' : State} (h : applyInput i s = .next s')
    (hagain : applyInput i s' = .next s') : runInputs [i, i] s = runInputs [i] s := by
  simp only [runInputs_cons h, runInputs_cons hagain, runInputs_nil]

/-- Settles O44: reset and INIT write all-ones again, IDLE and READ write nothing, and UPDATE steps again. -/
theorem onlyUpdateIsNotIdempotent : Obligations.OnlyUpdateIsNotIdempotent := by
  unfold Obligations.OnlyUpdateIsNotIdempotent
  refine ⟨fun s i h => ?_, fun s c hc => ?_, fun s c d hc => runInputs_updates_crc [d, d] hc, ?_⟩
  · rcases h with hreset | hidle | hinit
    · exact runInputs_twice (applyInput_reset hreset s) (applyInput_reset hreset _)
    · exact runInputs_twice (applyInput_of_does_idle hidle s) (applyInput_of_does_idle hidle s)
    · exact runInputs_twice (applyInput_of_does hinit s) (applyInput_of_does hinit _)
  · exact ⟨_, runInputs_reads 2 hc, hc⟩
  · obtain ⟨d, hd⟩ := exists_crcStep_ne 0#32
    exact ⟨0#32, d, (crcStep_injective d).ne hd⟩

end Sys2Proof.Machine
end

section
/-! ## The readings of the parameters (41_update.md section 1) -/

namespace Sys2Proof.Machine

/-- Settles O24: this is `crcStep_xor`, from the linearity of the bit-step. -/
theorem stepIsLinear : Obligations.StepIsLinear := by
  unfold Obligations.StepIsLinear
  exact crcStep_xor

/-- The spec's reading is the left-shifting form from all-ones, and so the block's function (41_update.md R44, R46). -/
theorem value_ofSpec (m : List Byte) : Reading.ofSpec.value m = crc32 m := by
  calc Reading.ofSpec.value m
      = leftFinalise (m.foldl leftStep Config.initialValue) := rfl
    _ = leftFinalise (bitrev32 (runBytes Config.initialValue m)) := by
        rw [← foldl_leftStep_bitrev32, show bitrev32 Config.initialValue = Config.initialValue from bitrev32_allOnes]
    _ = crc32 m := leftFinalise_bitrev32 _

/-- Settles O30: the spec's reading for every message, the others evaluated. -/
theorem onlyTheSpecReadingGivesTheCheckValue : Obligations.OnlyTheSpecReadingGivesTheCheckValue := by
  unfold Obligations.OnlyTheSpecReadingGivesTheCheckValue
  exact ⟨value_ofSpec, (value_ofSpec _).trans crc32_checkMessage, by decide +kernel, by decide +kernel,
    by decide +kernel, by decide +kernel, by decide +kernel, by decide +kernel, by decide +kernel⟩

end Sys2Proof.Machine
end

section
/-! ## The pseudo-instructions (30_encoding.md section 3) -/

namespace Sys2Proof.Machine

/-- Reading a row gives the values that reading each of its elements gives, in order, and fails where one fails. -/
theorem mapM_eq_ok_iff {α β ε : Type} (f : α → Except ε β) (xs : List α) (ys : List β) :
    xs.mapM f = .ok ys ↔ xs.map f = ys.map .ok := by
  induction xs generalizing ys with
  | nil => cases ys <;> simp [pure, Except.pure]
  | cons x xs ih =>
    rw [List.mapM_cons, List.map_cons]
    cases ys with
    | nil => cases f x <;> cases xs.mapM f <;> simp [bind, Except.bind, pure, Except.pure]
    | cons y ys =>
      rw [List.map_cons, List.cons.injEq, ← ih]
      cases f x <;> cases xs.mapM f <;> simp [bind, Except.bind, pure, Except.pure]

theorem byteOfChar_printable {c : Char} (h : 32 ≤ c.toNat ∧ c.toNat ≤ 126) :
    byteOfChar c = .ok (BitVec.ofNat 8 c.toNat) := if_pos h

/-- UPDATES is one UPDATE for each byte of its operands (30_encoding.md R38). -/
theorem assembleTokens_updates (operands : List Token) :
    assembleTokens (.word ['U', 'P', 'D', 'A', 'T', 'E', 'S'] :: operands)
      = (byteOperands operands).map updateInputs := rfl

/-- CRC32 is INIT, an UPDATE for each byte of its operands, READ (30_encoding.md R39). -/
theorem assembleTokens_crc32 (operands : List Token) :
    assembleTokens (.word ['C', 'R', 'C', '3', '2'] :: operands) = (byteOperands operands).map messageInputs := rfl

/-- Settles O47: the operands are read one by one, a text character by character; the listings are evaluated. -/
theorem pseudoInstructionsExpand : Obligations.PseudoInstructionsExpand := by
  unfold Obligations.PseudoInstructionsExpand
  refine ⟨fun operands bytes h => ⟨?_, ?_⟩, fun operands bytes hrow => ?_, fun cs hcs => ?_, by decide +kernel,
    by decide +kernel, ⟨by decide +kernel, by decide +kernel, by decide +kernel⟩, by decide +kernel⟩
  · rw [assembleTokens_updates, h]; rfl
  · rw [assembleTokens_crc32, h]; rfl
  · rw [byteOperands_row hrow, mapM_eq_ok_iff]
  · rw [byteOperands_text, mapM_eq_ok_iff, List.map_map]
    exact List.map_congr_left fun c hc => byteOfChar_printable (hcs c hc)

end Sys2Proof.Machine
end
